-- ==== Sys2Proof/Word.lean ====
section
/-! DEFINITION. The machine's word types (00_scope.md R9, R11): a byte of 8 bits, a word of 16 bits.
All values are unsigned; no instruction treats a value as signed (R10). -/

namespace Sys2Proof

/-- A byte, 8 bits, 0 to 0xFF (R11). -/
abbrev Byte := BitVec 8

/-- A word, 16 bits, 0 to 0xFFFF (R11). -/
abbrev Word := BitVec 16

end Sys2Proof
end

