-- ==== Sys2Proof/Machine/Bytes.lean ====
section
/-! DEFINITION. Byte order and bit fields: the two halves of a word (00_scope.md R11) and the word two bytes
make, low byte first (20_memory.md R65, 30_encoding.md R105). -/

namespace Sys2Proof

/-- `lo8(v) = v mod 256` (R11). -/
def lo8 (v : Word) : Byte := v.setWidth 8

/-- `hi8(v) = (v >> 8) mod 256` (R11). -/
def hi8 (v : Word) : Byte := (v >>> 8).setWidth 8

/-- `lo | (hi << 8)` (R67, R105); as `(hi << 8) | lo` also the value of a register pair (10_state.md R23). -/
def wordOf (lo hi : Byte) : Word := hi ++ lo

/-- The first `n` bytes of the number `w`, the least significant byte first. -/
def bytesOfNat : Nat → Nat → List Byte
  | 0, _ => []
  | n + 1, w => BitVec.ofNat 8 w :: bytesOfNat n (w / 256)

end Sys2Proof
end

