-- ==== Sys2Proof/Syntax.lean ====
section
/-! DEFINITION. The instruction set: one constructor per row of spec/opcode_table.json (30_encoding.md R109),
and the operand names. Meanings stand in Sys2Proof/Machine/ only. -/

namespace Sys2Proof

/-- The 3-bit register operand, in the order of its numbers 0 to 7 (10_state.md R21). `m` is no storage:
it is the memory cell addressed by HL (R22). -/
inductive Reg8 where
  | b | c | d | e | h | l | m | a
deriving DecidableEq, Repr

/-- The register pairs, numbers 0, 1, 2 (R23). Number 3 names no pair (30_encoding.md R112). -/
inductive Pair where
  | b | d | h
deriving DecidableEq, Repr

/-- The eight conditions, in the order of their numbers 0 to 7 (30_encoding.md R110). -/
inductive Cond where
  | nz | z | nc | c | po | pe | p | m
deriving DecidableEq, Repr

/-- An instruction with its operands: an 8-bit immediate is a byte (R104), a 16-bit immediate a word (R105). -/
inductive Instr where
  /-- NOP: no operation (R266). -/
  | nop
  /-- HLT: halt (R267). -/
  | hlt
  /-- MOV: move between registers, or between a register and `M` (R150). -/
  | mov (dst : Reg8) (src : Reg8)
  /-- MVI: load an 8-bit immediate into a register or `M` (R151). -/
  | mvi (dst : Reg8) (imm : Byte)
  /-- LXI B: load a 16-bit immediate into pair B (R152). -/
  | lxiB (imm : Word)
  /-- LXI D: load a 16-bit immediate into pair D (R152). -/
  | lxiD (imm : Word)
  /-- LXI H: load a 16-bit immediate into pair H (R152). -/
  | lxiH (imm : Word)
  /-- STAX B: store A at the address in pair B (R156). -/
  | staxB
  /-- LDAX B: load A from the address in pair B (R155). -/
  | ldaxB
  /-- STAX D: store A at the address in pair D (R156). -/
  | staxD
  /-- LDAX D: load A from the address in pair D (R155). -/
  | ldaxD
  /-- RLC: rotate A left (R208). -/
  | rlc
  /-- RRC: rotate A right (R209). -/
  | rrc
  /-- RAL: rotate A left through Carry (R210). -/
  | ral
  /-- RAR: rotate A right through Carry (R211). -/
  | rar
  /-- STC: set Carry (R212). -/
  | stc
  /-- STA: store A to a direct address (R154). -/
  | sta (addr : Word)
  /-- LDA: load A from a direct address (R153). -/
  | lda (addr : Word)
  /-- ADD: add to A (R173). -/
  | add (src : Reg8)
  /-- ADC: add with Carry to A (R174). -/
  | adc (src : Reg8)
  /-- SUB: subtract from A (R175). -/
  | sub (src : Reg8)
  /-- SBB: subtract with borrow from A (R176). -/
  | sbb (src : Reg8)
  /-- ANA: AND with A (R192). -/
  | ana (src : Reg8)
  /-- XRA: exclusive OR with A (R193). -/
  | xra (src : Reg8)
  /-- ORA: OR with A (R194). -/
  | ora (src : Reg8)
  /-- CMP: compare with A (R195). -/
  | cmp (src : Reg8)
  /-- ADI: add immediate to A (R177). -/
  | adi (imm : Byte)
  /-- ACI: add immediate and Carry to A (R178). -/
  | aci (imm : Byte)
  /-- SUI: subtract immediate from A (R179). -/
  | sui (imm : Byte)
  /-- SBI: subtract immediate and borrow from A (R180). -/
  | sbi (imm : Byte)
  /-- ANI: AND immediate with A (R196). -/
  | ani (imm : Byte)
  /-- XRI: exclusive OR immediate with A (R197). -/
  | xri (imm : Byte)
  /-- ORI: OR immediate with A (R198). -/
  | ori (imm : Byte)
  /-- CPI: compare A with immediate (R199). -/
  | cpi (imm : Byte)
  /-- JMP: jump (R221). -/
  | jmp (addr : Word)
  /-- JNZ: jump if Zero is false (R222). -/
  | jnz (addr : Word)
  /-- JZ: jump if Zero is true (R223). -/
  | jz (addr : Word)
  /-- JNC: jump if Carry is false (R224). -/
  | jnc (addr : Word)
  /-- JC: jump if Carry is true (R225). -/
  | jc (addr : Word)
  /-- JPO: jump if Parity is false (R226). -/
  | jpo (addr : Word)
  /-- JPE: jump if Parity is true (R227). -/
  | jpe (addr : Word)
  /-- JP: jump if Sign is false (R228). -/
  | jp (addr : Word)
  /-- JM: jump if Sign is true (R229). -/
  | jm (addr : Word)
  /-- CALL: call (R231). -/
  | call (addr : Word)
  /-- CNZ: call if Zero is false (R232). -/
  | cnz (addr : Word)
  /-- CZ: call if Zero is true (R233). -/
  | cz (addr : Word)
  /-- CNC: call if Carry is false (R234). -/
  | cnc (addr : Word)
  /-- CC: call if Carry is true (R235). -/
  | cc (addr : Word)
  /-- CPO: call if Parity is false (R236). -/
  | cpo (addr : Word)
  /-- CPE: call if Parity is true (R237). -/
  | cpe (addr : Word)
  /-- CP: call if Sign is false (R238). -/
  | cp (addr : Word)
  /-- CM: call if Sign is true (R239). -/
  | cm (addr : Word)
  /-- RET: return (R241). -/
  | ret
  /-- RNZ: return if Zero is false (R242). -/
  | rnz
  /-- RZ: return if Zero is true (R243). -/
  | rz
  /-- RNC: return if Carry is false (R244). -/
  | rnc
  /-- RC: return if Carry is true (R245). -/
  | rc
  /-- RPO: return if Parity is false (R246). -/
  | rpo
  /-- RPE: return if Parity is true (R247). -/
  | rpe
  /-- RP: return if Sign is false (R248). -/
  | rp
  /-- RM: return if Sign is true (R249). -/
  | rm
  /-- PUSH B: push pair B (R262). -/
  | pushB
  /-- POP B: pop pair B (R263). -/
  | popB
  /-- PUSH D: push pair D (R262). -/
  | pushD
  /-- POP D: pop pair D (R263). -/
  | popD
  /-- PUSH H: push pair H (R262). -/
  | pushH
  /-- POP H: pop pair H (R263). -/
  | popH
deriving DecidableEq, Repr

end Sys2Proof
end

