-- ==== Sys2Proof/Machine/Opcodes.lean ====
section
/-! DEFINITION. The opcode assignment OPC (10_state.md R36, 30_encoding.md R108): a table that is a parameter of the
machine, what it must satisfy, and the spec's instance of it (R109). The blocks `mov` 0x40 to 0x7F, `add` 0x80 to 0x8F
and `sub` 0x90 to 0x9F, the register order and the pair order are the source's and no parameters (R107, R108). -/

namespace Sys2Proof

/-- One opcode byte per register name or `M`: the eight of MVI (R109). -/
structure RegisterBytes where
  b : Byte
  c : Byte
  d : Byte
  e : Byte
  h : Byte
  l : Byte
  m : Byte
  a : Byte
deriving DecidableEq, Repr

/-- The byte of a register name. -/
def RegisterBytes.byteOf (t : RegisterBytes) : Reg8 → Byte
  | .b => t.b
  | .c => t.c
  | .d => t.d
  | .e => t.e
  | .h => t.h
  | .l => t.l
  | .m => t.m
  | .a => t.a

/-- One opcode byte per register pair: LXI, PUSH, POP (R109). -/
structure PairBytes where
  b : Byte
  d : Byte
  h : Byte
deriving DecidableEq, Repr

/-- The byte of a pair. -/
def PairBytes.byteOf (t : PairBytes) : Pair → Byte
  | .b => t.b
  | .d => t.d
  | .h => t.h

/-- One opcode byte per pair of the accumulator's indirect moves: LDAX and STAX have B and D only (R109). -/
structure IndirectBytes where
  b : Byte
  d : Byte
deriving DecidableEq, Repr

/-- One opcode byte per condition: Jcc, Ccc, Rcc (R109, R110). -/
structure ConditionBytes where
  nz : Byte
  z : Byte
  nc : Byte
  c : Byte
  po : Byte
  pe : Byte
  p : Byte
  m : Byte
deriving DecidableEq, Repr

/-- The byte of a condition. -/
def ConditionBytes.byteOf (t : ConditionBytes) : Cond → Byte
  | .nz => t.nz
  | .z => t.z
  | .nc => t.nc
  | .c => t.c
  | .po => t.po
  | .pe => t.pe
  | .p => t.p
  | .m => t.m

/-- `OPC`: the byte of every fixed opcode (stage 1) and the place of the four logic blocks (stage 2), which the source
leaves open (00_scope.md R8, 30_encoding.md R107, R108; decision D1). A logic block is 8 wide and keyed by the low 3
bits, so its place is bits 7:3. -/
structure OpcodeTable where
  nop : Byte
  hlt : Byte
  mvi : RegisterBytes
  lxi : PairBytes
  stax : IndirectBytes
  ldax : IndirectBytes
  rlc : Byte
  rrc : Byte
  ral : Byte
  rar : Byte
  stc : Byte
  sta : Byte
  lda : Byte
  adi : Byte
  aci : Byte
  sui : Byte
  sbi : Byte
  ani : Byte
  xri : Byte
  ori : Byte
  cpi : Byte
  jmp : Byte
  jcc : ConditionBytes
  call : Byte
  ccc : ConditionBytes
  ret : Byte
  rcc : ConditionBytes
  push : PairBytes
  pop : PairBytes
  ana : BitVec 5
  xra : BitVec 5
  ora : BitVec 5
  cmp : BitVec 5
deriving DecidableEq, Repr

/-- The values of R109, the only place that holds them: outside 0x40 to 0x9F the Intel 8080's (R108, D1): PRESUMED,
unsafe, log 5. -/
def OpcodeTable.intel8080 : OpcodeTable where
  nop := 0x00
  hlt := 0x76
  mvi := ⟨0x06, 0x0E, 0x16, 0x1E, 0x26, 0x2E, 0x36, 0x3E⟩
  lxi := ⟨0x01, 0x11, 0x21⟩
  stax := ⟨0x02, 0x12⟩
  ldax := ⟨0x0A, 0x1A⟩
  rlc := 0x07
  rrc := 0x0F
  ral := 0x17
  rar := 0x1F
  stc := 0x37
  sta := 0x32
  lda := 0x3A
  adi := 0xC6
  aci := 0xCE
  sui := 0xD6
  sbi := 0xDE
  ani := 0xE6
  xri := 0xEE
  ori := 0xF6
  cpi := 0xFE
  jmp := 0xC3
  jcc := ⟨0xC2, 0xCA, 0xD2, 0xDA, 0xE2, 0xEA, 0xF2, 0xFA⟩
  call := 0xCD
  ccc := ⟨0xC4, 0xCC, 0xD4, 0xDC, 0xE4, 0xEC, 0xF4, 0xFC⟩
  ret := 0xC9
  rcc := ⟨0xC0, 0xC8, 0xD0, 0xD8, 0xE0, 0xE8, 0xF0, 0xF8⟩
  push := ⟨0xC5, 0xD5, 0xE5⟩
  pop := ⟨0xC1, 0xD1, 0xE1⟩
  ana := 0b10100#5
  xra := 0b10101#5
  ora := 0b10110#5
  cmp := 0b10111#5

/-- The bytes of a per-register group. -/
def RegisterBytes.bytes (t : RegisterBytes) : List Byte := [t.b, t.c, t.d, t.e, t.h, t.l, t.m, t.a]

/-- The bytes of a per-pair group. -/
def PairBytes.bytes (t : PairBytes) : List Byte := [t.b, t.d, t.h]

/-- The bytes of LDAX or STAX. -/
def IndirectBytes.bytes (t : IndirectBytes) : List Byte := [t.b, t.d]

/-- The bytes of a per-condition group. -/
def ConditionBytes.bytes (t : ConditionBytes) : List Byte := [t.nz, t.z, t.nc, t.c, t.po, t.pe, t.p, t.m]

/-- Every fixed opcode byte, in the order of `OpcodeTable.rows`. -/
def OpcodeTable.fixedBytes (t : OpcodeTable) : List Byte :=
  [t.nop, t.hlt, t.rlc, t.rrc, t.ral, t.rar, t.stc, t.sta, t.lda] ++ t.mvi.bytes ++
  (t.lxi.bytes ++ t.stax.bytes ++ t.ldax.bytes ++ t.push.bytes ++ t.pop.bytes) ++
  [t.adi, t.aci, t.sui, t.sbi, t.ani, t.xri, t.ori, t.cpi] ++
  (t.jmp :: t.jcc.bytes) ++ (t.call :: t.ccc.bytes) ++ (t.ret :: t.rcc.bytes)

/-- The four logic blocks. -/
def OpcodeTable.logicBlocks (t : OpcodeTable) : List (BitVec 5) := [t.ana, t.xra, t.ora, t.cmp]

/-- Whether no byte occurs twice in the list or in the set `seen` (a bit per byte value). -/
def distinctBytes : List Byte → Nat → Bool
  | [], _ => true
  | b :: rest, seen => !seen.testBit b.toNat && distinctBytes rest (seen ||| 1 <<< b.toNat)

/-- Where a fixed byte may lie: outside `mov`, `add` and `sub`, but that HLT may lie in `mov` (R107, R111), and outside
the logic blocks. -/
def OpcodeTable.mayBeFixed (t : OpcodeTable) (b : Byte) : Bool :=
  decide ((b.toNat < 0x40 ∨ 0xA0 ≤ b.toNat ∨ (b = t.hlt ∧ b.toNat < 0x80)) ∧ b.extractLsb' 3 5 ∉ t.logicBlocks)

/-- What the table must satisfy. It agrees with the three blocks the source gives (00_scope.md R8), and nothing is
assigned twice: the fixed bytes are distinct, and the logic blocks overlap neither one another (R107) nor the three
blocks nor a fixed byte (DEDUCED, safe: log 5). -/
def OpcodeTable.wf (t : OpcodeTable) : Bool :=
  distinctBytes t.fixedBytes 0 && t.fixedBytes.all t.mayBeFixed &&
  decide (∀ k ∈ t.logicBlocks, k.toNat < 8 ∨ 20 ≤ k.toNat) && decide t.logicBlocks.Nodup

end Sys2Proof
end

