-- ==== Sys2Proof/Config.lean ====
section
/-! DEFINITION. The configuration record `cfg`: the segmentation data, the opcode assignment and the run-loop cadence
(00_scope.md R8, 10_state.md R36), its well-formedness (70_reset_and_hazards.md R330) and the two instances of
95_test_vectors.md; State.reset takes CFG_T. -/

namespace Sys2Proof

/-- `MemorySegmentationData` and the three parameters the spec adds to it (R8). Immutable: nothing in the
model writes it. Every value is OPEN in the spec, so statements quantify over all of them. -/
structure Config where
  /-- `total_size`: the byte array has the addresses 0 to `total_size` (R60). -/
  totalSize : Nat
  /-- `rom_size`: the read-only region is the addresses below it (R70). -/
  romSize : Nat
  /-- `ram_start`: named by the spec, no run-time effect (R64). -/
  ramStart : Nat
  /-- `ram_end`: named by the spec, no run-time effect (R64). -/
  ramEnd : Nat
  /-- `stack_address`: the value of SP after Reset (R30, R326). -/
  stackAddress : Nat
  /-- `stack_length`: advisory, not enforced (R86). -/
  stackLength : Nat
  /-- `stack_pointer_location`: the low byte of SP; the high byte is the next cell (R30). -/
  stackPointerLocation : Nat
  /-- `in_out_ports_start`: the first address of the port row (R74). -/
  inOutPortsStart : Nat
  /-- `PORT_ROW_LEN`: the number of bytes of the port row (R74). -/
  portRowLen : Nat
  /-- `offset`: the execution start address (R326). -/
  offset : Nat
  /-- `StepsBeforeSleep`: steps of the run loop between two yields (R338); no effect on what a step does (R352). -/
  stepsBeforeSleep : Nat
  /-- `OPC`: the opcode assignment (R8, R36, 30_encoding.md R108). -/
  opc : OpcodeTable
deriving DecidableEq, Repr

/-- Configuration well-formedness, clause by clause as R330 lists them (its last clause, on the ROM image, is checked
where the image is set: `setCode`), and what the opcode table must satisfy (R8; log 5). A configuration that breaks it
is refused (U6, U17; log 10). -/
def Config.wf (c : Config) : Bool :=
  decide (c.romSize < c.ramStart ∧ c.ramStart ≤ c.ramEnd ∧ c.ramEnd < c.totalSize ∧
    c.totalSize ≤ 0xFFFF ∧
    c.romSize ≤ c.stackPointerLocation ∧ c.stackPointerLocation + 1 ≤ c.totalSize ∧
    (c.stackPointerLocation + 1 < c.inOutPortsStart ∨ c.inOutPortsStart + c.portRowLen ≤ c.stackPointerLocation) ∧
    1 ≤ c.stackAddress ∧ c.stackAddress ≤ c.totalSize ∧ c.romSize ≤ c.stackAddress - 1 ∧
    c.romSize ≤ c.inOutPortsStart ∧ 1 ≤ c.portRowLen ∧
    c.inOutPortsStart + c.portRowLen - 1 ≤ c.totalSize ∧
    c.opc.wf = true)

/-- CFG_T of 95_test_vectors.md, the configuration State.reset takes (DESIGN CHOICE, unsafe: log 2).
`StepsBeforeSleep` is its default 50 (R8). -/
def Config.cfgT : Config where
  totalSize := 0xFFFF
  romSize := 0x1000
  ramStart := 0x2000
  ramEnd := 0xEFFF
  stackAddress := 0xF7FF
  stackLength := 0x0400
  stackPointerLocation := 0xFFF0
  inOutPortsStart := 0xFF00
  portRowLen := 16
  offset := 0
  stepsBeforeSleep := 50
  opc := OpcodeTable.intel8080

/-- CFG_S of 95_test_vectors.md, a small memory for the range faults. -/
def Config.cfgS : Config where
  totalSize := 0xFF
  romSize := 0x10
  ramStart := 0x20
  ramEnd := 0xDF
  stackAddress := 0xDF
  stackLength := 0x20
  stackPointerLocation := 0xF0
  inOutPortsStart := 0xE0
  portRowLen := 8
  offset := 0
  stepsBeforeSleep := 50
  opc := OpcodeTable.intel8080

end Sys2Proof
end

