-- ==== Sys2Proof/Machine/State.lean ====
section
/-! DEFINITION. The machine's state as plain data (10_state.md R20 to R44), the reasons a command or a step can
stop with, and the state after reset. -/

namespace Sys2Proof.Machine

/-- The seven register cells (R20). `M` is no storage (R22). -/
structure Regs where
  a : Byte
  b : Byte
  c : Byte
  d : Byte
  e : Byte
  h : Byte
  l : Byte
deriving DecidableEq, Repr

/-- `ProcessorFlags`, five separate Booleans (R28): Sign, Zero, Auxiliary-carry, Parity, Carry. -/
structure Flags where
  s : Bool
  z : Bool
  ac : Bool
  p : Bool
  c : Bool
deriving DecidableEq, Repr

/-- A fault record `(kind, info)` (60_exceptions.md R281). The machine takes a fault by latching it (R288). -/
inductive FaultRecord where
  /-- A write to an address below `rom_size` (R282). -/
  | protectedMemoryWrite (addr : Nat)
  /-- The opcode byte at `pc` is not in the opcode map (R284). -/
  | unrecognizedOpcode (op : Byte) (pc : Nat)
  /-- A read or write at an address above `total_size` (R283). -/
  | memoryRange (addr : Nat)
deriving DecidableEq, Repr

/-- The code labels 1, 2, 3 of R281. -/
def FaultRecord.code : FaultRecord → Nat
  | .protectedMemoryWrite _ => 1
  | .unrecognizedOpcode _ _ => 2
  | .memoryRange _ => 3

/-- One output-port event `(port_index, byte_value)` (20_memory.md R74). -/
structure PortEvent where
  index : Nat
  value : Byte
deriving DecidableEq, Repr

/-- The byte array: address and byte pairs, addresses strictly rising, no entry equal to `unlistedByte`
(Memory.wf in Machine/Memory.lean). -/
abbrev Memory := List Host.Cell

/-- What an unlisted address reads as: 0, the content after construction or ClearMemory
(70_reset_and_hazards.md R320, R321; log 6). -/
def unlistedByte : Byte := 0x00#8

/-- Everything the spec gives the machine. SP is no field: it is two memory cells (R30). -/
structure State where
  /-- The immutable configuration record (R36; log 1). -/
  cfg : Config
  /-- The register file (R20). -/
  regs : Regs
  /-- The five flags (R28). -/
  flags : Flags
  /-- The program counter, a natural that does not wrap (R25). -/
  pc : Nat
  /-- The byte array (20_memory.md R60). -/
  mem : Memory
  /-- The run state: true is Running, false is Stopped (R32). -/
  running : Bool
  /-- The fault latch (R37). -/
  fault : Option FaultRecord
  /-- `protected_memory_length`, recorded and read by no rule (R34). -/
  protectedMemoryLength : Nat
  /-- The retained ROM image (R35). -/
  romImage : List Byte
  /-- The append-only trace of output-port events, oldest first (R39). -/
  ports : List PortEvent
deriving DecidableEq, Repr

/-- The conditions a host command reports to the host without latching a fault in the engine
(70_reset_and_hazards.md R339). No instruction and no step stops with one: the engine latches its own faults and
goes to a next state (60_exceptions.md R288; log 7). -/
inductive Fault where
  /-- Raised by HostWrite below `rom_size`. Safe: nothing is written. -/
  | protectedMemoryWrite (addr : Nat)
  /-- Raised by HostRead, HostWrite and a raw load above `total_size`. Safe: nothing is read or written. -/
  | memoryRange (addr : Nat)
deriving DecidableEq, Repr

/-- What the model refuses. -/
inductive Refusal where
  /-- An instruction with no meaning yet. No arm of exec gives it. -/
  | notModelled (mnemonic : String)
  /-- Raised by Construct and by step for a configuration that breaks R330 (93_implementation_defined.md U6, U17)
  or whose opcode table is ill-formed (log 5). Safe: nothing runs. -/
  | illFormedConfig
  /-- Raised by HostWrite and a raw load while the engine runs (93_implementation_defined.md U13, R339). Safe. -/
  | hostWriteWhileRunning
  /-- Raised by SetCode for an image longer than the byte array (R322's precondition). Safe. -/
  | imageTooLong
deriving DecidableEq, Repr

/-- How every step, command and meaning ends. -/
abbrev Result := Host.Outcome State Fault Refusal

/-- All seven registers 0: the model's choice at reset (R44 leaves them unspecified; log 3). -/
def Regs.zero : Regs where
  a := 0x00#8
  b := 0x00#8
  c := 0x00#8
  d := 0x00#8
  e := 0x00#8
  h := 0x00#8
  l := 0x00#8

/-- All five flags false: the model's choice at reset (R44 leaves them unspecified; log 3). -/
def Flags.clear : Flags where
  s := false
  z := false
  ac := false
  p := false
  c := false

/-- The machine after `Construct(CFG_T)` and `Reset()` with nothing loaded (R44, 70_reset_and_hazards.md R320, R326):
the two SP cells hold `stack_address` 0xF7FF, every other byte is 0, `pc` is `offset`. Registers and flags: log 3;
the configuration: log 2; the empty image: log 4. -/
def State.reset : State where
  cfg := Config.cfgT
  regs := Regs.zero
  flags := Flags.clear
  pc := 0
  mem := [(0xFFF0, 0xFF#8), (0xFFF1, 0xF7#8)]
  running := false
  fault := none
  protectedMemoryLength := 0
  romImage := []
  ports := []

/-- Replace the register file. -/
def State.setRegs (s : State) (r : Regs) : State := { s with regs := r }

/-- Replace the accumulator. -/
def State.setA (s : State) (v : Byte) : State := { s with regs := { s.regs with a := v } }

/-- Replace the flags. -/
def State.setFlags (s : State) (f : Flags) : State := { s with flags := f }

/-- Set the program counter (00_scope.md R15). -/
def State.setPc (s : State) (target : Nat) : State := { s with pc := target }

/-- Replace the byte array. -/
def State.setMem (s : State) (m : Memory) : State := { s with mem := m }

/-- Append events to the port trace. -/
def State.emit (s : State) (es : List PortEvent) : State := { s with ports := s.ports ++ es }

/-- Set the run state (R32). -/
def State.setRunning (s : State) (r : Bool) : State := { s with running := r }

/-- Set the fault latch (R37). -/
def State.setFault (s : State) (f : Option FaultRecord) : State := { s with fault := f }

/-- Set the retained image and its recorded length (R34, R35). -/
def State.setImage (s : State) (image : List Byte) (length : Nat) : State :=
  { s with romImage := image, protectedMemoryLength := length }

end Sys2Proof.Machine
end

