-- ==== Sys2Proof/Machine/Memory.lean ====
section
/-! DEFINITION. The byte array (20_memory.md R60): reading and writing one cell with no check, clearing, and
copying an image; the canonical form. The checked accesses are in Machine/Ops.lean. -/

namespace Sys2Proof.Machine

/-- `mem[a]`, with no check (00_scope.md R14). -/
def Memory.read : Memory → Nat → Byte
  | [], _ => unlistedByte
  | (addr, v) :: rest, a => if a = addr then v else Memory.read rest a

/-- The array without an entry for `a`. -/
def Memory.drop : Memory → Nat → Memory
  | [], _ => []
  | (addr, v) :: rest, a => if a = addr then Memory.drop rest a else (addr, v) :: Memory.drop rest a

/-- Put an entry for `a` in its place by address. -/
def Memory.insert : Memory → Nat → Byte → Memory
  | [], a, v => [(a, v)]
  | (addr, w) :: rest, a, v =>
    if a < addr then (a, v) :: (addr, w) :: rest else (addr, w) :: Memory.insert rest a v

/-- `mem[a] <- v`, with no check. Writing what an unlisted address reads as removes the entry. -/
def Memory.write (m : Memory) (a : Nat) (v : Byte) : Memory :=
  if v = unlistedByte then m.drop a else (m.drop a).insert a v

/-- Every byte 0 (70_reset_and_hazards.md R321). -/
def Memory.cleared : Memory := []

/-- `mem[base + i] <- image[i]` for every byte of the image (R326), with no check. -/
def Memory.load : Memory → Nat → List Byte → Memory
  | m, _, [] => m
  | m, base, v :: rest => Memory.load (m.write base v) (base + 1) rest

/-- Every address listed is above `a`. -/
def Memory.above (a : Nat) (m : Memory) : Bool := m.all fun cell => decide (a < cell.1)

/-- The canonical form: addresses strictly rising, no entry equal to what an unlisted address reads as. -/
def Memory.wf : Memory → Bool
  | [] => true
  | (a, v) :: rest => decide (v ≠ unlistedByte) && Memory.above a rest && Memory.wf rest

/-- Every address listed names a cell of the array `0 .. top` (R60). -/
def Memory.within (m : Memory) (top : Nat) : Bool := m.all fun cell => decide (cell.1 ≤ top)

end Sys2Proof.Machine
end

