-- ==== Sys2Proof/Machine/Ops.lean ====
section
/-! DEFINITION. The named operations over memory, SP, the program counter and the fault latch
(20_memory.md R66 to R74, 44_stack_control.md R260, R261, 60_exceptions.md R288, R289). An operation either goes on
or raises a fault, and what it raises carries the state reached so far, since earlier effects stay made (R288). -/

namespace Sys2Proof.Machine

/-- What `raise F(info)` leaves (00_scope.md R15, R288): the record and the state reached by the earlier lines. -/
structure Raised where
  record : FaultRecord
  state : State
deriving DecidableEq, Repr

/-- An operation that yields a value or raises a fault. -/
abbrev Attempt (α : Type) := Except Raised α

/-- `raise F(info)` in state `s` (R15). -/
def raiseFault {α : Type} (record : FaultRecord) (s : State) : Attempt α := .error ⟨record, s⟩

/-- `MemRead(addr, 1)` (R66): no protection check, no effect. -/
def memRead (a : Nat) (s : State) : Attempt Byte :=
  if s.cfg.totalSize < a then raiseFault (.memoryRange a) s else .ok (s.mem.read a)

/-- `MemRead(addr, 2)` (R67): little-endian, `addr + 1` does not wrap. -/
def memRead16 (a : Nat) (s : State) : Attempt Word := do
  let lo ← memRead a s
  let hi ← memRead (a + 1) s
  .ok (wordOf lo hi)

/-- The port events of storing `v` at `a` (R74): one inside the port row, none outside. -/
def portEvents (cfg : Config) (a : Nat) (v : Byte) : List PortEvent :=
  if cfg.inOutPortsStart ≤ a ∧ a < cfg.inOutPortsStart + cfg.portRowLen then
    [⟨a - cfg.inOutPortsStart, v⟩]
  else []

/-- The effect of a store that passed its checks: the byte, then the event (R68 lines 3 and 4). -/
def storeByte (a : Nat) (v : Byte) (s : State) : State :=
  (s.setMem (s.mem.write a v)).emit (portEvents s.cfg a v)

/-- `MemWrite(addr, 1, v)` (R68): protection before range, then the store and the event. -/
def memWrite (a : Nat) (v : Byte) (s : State) : Attempt State :=
  if a < s.cfg.romSize then raiseFault (.protectedMemoryWrite a) s
  else if s.cfg.totalSize < a then raiseFault (.memoryRange a) s
  else .ok (storeByte a v s)

/-- `MemWrite(addr, 2, v)` (R69): low byte first. -/
def memWrite16 (a : Nat) (v : Word) (s : State) : Attempt State := do
  let s1 ← memWrite a (lo8 v) s
  memWrite (a + 1) (hi8 v) s1

/-- `SP` (10_state.md R30): the word in the two SP cells. -/
def readSp (s : State) : Attempt Word := memRead16 s.cfg.stackPointerLocation s

/-- `SP <- v` (R30). -/
def writeSp (v : Word) (s : State) : Attempt State := memWrite16 s.cfg.stackPointerLocation v s

/-- `PushStack(v)` (R260): high byte at `[sp]`, low byte at `[sp-1]`, then `SP <- sp - 2`, all mod 65536 (R73). -/
def pushStack (v : Word) (s : State) : Attempt State := do
  let sp ← readSp s
  let s1 ← memWrite sp.toNat (hi8 v) s
  let s2 ← memWrite (sp - 1#16).toNat (lo8 v) s1
  writeSp (sp - 2#16) s2

/-- `PopStack()` (R261): high byte from `[sp+2]`, low byte from `[sp+1]`, then `SP <- sp + 2`, all mod 65536 (R73). -/
def popStack (s : State) : Attempt (Word × State) := do
  let sp ← readSp s
  let hi ← memRead (sp + 2#16).toNat s
  let lo ← memRead (sp + 1#16).toNat s
  let s1 ← writeSp (sp + 2#16) s
  .ok (wordOf lo hi, s1)

/-- `pc <- pc + n` (R15, 10_state.md R26): the last action of an instruction that sets no target. -/
def advance (n : Nat) (s : State) : State := s.setPc (s.pc + n)

/-- Fault entry (R288): what was done stays done, `pc` stays at the faulting instruction, the engine stops and
latches the record. -/
def takeFault (r : Raised) : State := (r.state.setRunning false).setFault (some r.record)

/-- How an instruction ends: its next state, or fault entry, which is a next state too (R288; log 7). -/
def conclude : Attempt State → Result
  | .ok s => .next s
  | .error r => .next (takeFault r)

/-- The end-of-memory test (10_state.md R27): a graceful stop, not a fault (R292). -/
def stopAtEnd (s : State) : State := if s.cfg.totalSize ≤ s.pc then s.setRunning false else s

/-- `Reset()` (70_reset_and_hazards.md R326), the only way out of a latched fault (R289): the image and SP are
written with no check and no event. The registers and flags it leaves are unspecified (R44): `regs` and `flags`
are any values (log 16). -/
def resetEngine (regs : Regs) (flags : Flags) (s : State) : State where
  cfg := s.cfg
  regs := regs
  flags := flags
  pc := s.cfg.offset
  mem := ((s.mem.load 0 s.romImage).write s.cfg.stackPointerLocation
      (lo8 (BitVec.ofNat 16 s.cfg.stackAddress))).write
      (s.cfg.stackPointerLocation + 1) (hi8 (BitVec.ofNat 16 s.cfg.stackAddress))
  running := false
  fault := none
  protectedMemoryLength := s.protectedMemoryLength
  romImage := s.romImage
  ports := s.ports

end Sys2Proof.Machine
end

