-- ==== Sys2Proof/Machine/Operands.lean ====
section
/-! DEFINITION. The operand forms: registers and `M` (00_scope.md R13, 10_state.md R22), register pairs (R23),
conditions (30_encoding.md R110). -/

namespace Sys2Proof.Machine

/-- `HL = (H << 8) | L` (00_scope.md R12). -/
def State.hl (s : State) : Word := wordOf s.regs.l s.regs.h

/-- `BC = (B << 8) | C` (R12, R23). -/
def State.bc (s : State) : Word := wordOf s.regs.c s.regs.b

/-- `DE = (D << 8) | E` (R12, R23). -/
def State.de (s : State) : Word := wordOf s.regs.e s.regs.d

/-- `RegRead(i)` (R13): a register, or the byte at HL. -/
def regRead (r : Reg8) (s : State) : Attempt Byte :=
  match r with
  | .b => .ok s.regs.b
  | .c => .ok s.regs.c
  | .d => .ok s.regs.d
  | .e => .ok s.regs.e
  | .h => .ok s.regs.h
  | .l => .ok s.regs.l
  | .m => memRead s.hl.toNat s
  | .a => .ok s.regs.a

/-- `RegWrite(i, v)` (R13): a register, or the byte at HL. -/
def regWrite (r : Reg8) (v : Byte) (s : State) : Attempt State :=
  match r with
  | .b => .ok (s.setRegs { s.regs with b := v })
  | .c => .ok (s.setRegs { s.regs with c := v })
  | .d => .ok (s.setRegs { s.regs with d := v })
  | .e => .ok (s.setRegs { s.regs with e := v })
  | .h => .ok (s.setRegs { s.regs with h := v })
  | .l => .ok (s.setRegs { s.regs with l := v })
  | .m => memWrite s.hl.toNat v s
  | .a => .ok (s.setRegs { s.regs with a := v })

/-- The value of a register pair, the first-named register high (R23, D26). -/
def pairRead (p : Pair) (s : State) : Word :=
  match p with
  | .b => s.bc
  | .d => s.de
  | .h => s.hl

/-- Write a register pair, high byte to the first-named register (R23, R152). -/
def pairWrite (p : Pair) (v : Word) (s : State) : State :=
  match p with
  | .b => s.setRegs { s.regs with b := hi8 v, c := lo8 v }
  | .d => s.setRegs { s.regs with d := hi8 v, e := lo8 v }
  | .h => s.setRegs { s.regs with h := hi8 v, l := lo8 v }

/-- `cond(ccc)` on the flags as they are when the instruction starts (R110, 43_branch.md R220). -/
def condHolds (cond : Cond) (f : Flags) : Bool :=
  match cond with
  | .nz => !f.z
  | .z => f.z
  | .nc => !f.c
  | .c => f.c
  | .po => !f.p
  | .pe => f.p
  | .p => !f.s
  | .m => f.s

end Sys2Proof.Machine
end

