-- ==== Sys2Proof/Machine/Flags.lean ====
section
/-! DEFINITION. Every flag computation (41_arithmetic.md R170 to R172, 42_logical.md R190, R191) and the wide values
they take. -/

namespace Sys2Proof.Machine

/-- The number of 1 bits of a byte (R171). -/
def popCount (r : Byte) : Nat :=
  (r.getLsbD 0).toNat + (r.getLsbD 1).toNat + (r.getLsbD 2).toNat + (r.getLsbD 3).toNat +
  (r.getLsbD 4).toNat + (r.getLsbD 5).toNat + (r.getLsbD 6).toNat + (r.getLsbD 7).toNat

/-- `EvenParity(r)` (R171). -/
def evenParity (r : Byte) : Bool := decide (popCount r % 2 = 0)

/-- `CheckFlags(w)` (R170): all five flags from the un-truncated 16-bit result. Ac is "low byte > 9", as the spec
keeps it (R170, Q2), not a half carry. -/
def checkFlags (w : Word) : Flags where
  s := (lo8 w).getLsbD 7
  z := decide (lo8 w = 0#8)
  ac := decide (9 < (lo8 w).toNat)
  p := evenParity (lo8 w)
  c := decide (0xFF < w.toNat)

/-- `Compare(a, v)` (R191): Z, S, P of the difference, C the borrow; Ac keeps its value (D8). -/
def compareFlags (a v : Byte) (old : Flags) : Flags where
  s := (a - v).getLsbD 7
  z := decide (a - v = 0#8)
  ac := old.ac
  p := evenParity (a - v)
  c := decide (a.toNat < v.toNat)

/-- `cy`, the numeric value of the Carry flag (00_scope.md R17), as a word. -/
def carryWord (c : Bool) : Word := if c then 1#16 else 0#16

/-- `w = A + v + cin` (R172): at most 0x1FF, so nothing is lost in 16 bits. -/
def wideSum (a v : Byte) (cin : Bool) : Word := a.setWidth 16 + v.setWidth 16 + carryWord cin

/-- `w = (A - v - cin) mod 65536` (R172, D5). -/
def wideDifference (a v : Byte) (cin : Bool) : Word := a.setWidth 16 - v.setWidth 16 - carryWord cin

/-- The common end of arithmetic and logic: `A <- w mod 256`, `CheckFlags(w)` (R173, R190). -/
def setResult (w : Word) (s : State) : State := (s.setA (lo8 w)).setFlags (checkFlags w)

/-- A 16-bit value with a byte's bits, for `CheckFlags` of a logic result (R190). -/
def wideByte (r : Byte) : Word := r.setWidth 16

/-- The compare instructions' effect: flags only (R191). -/
def setCompare (v : Byte) (s : State) : State := s.setFlags (compareFlags s.regs.a v s.flags)

/-- Write Carry only (42_logical.md R208 to R212). -/
def setCarry (c : Bool) (s : State) : State := s.setFlags { s.flags with c := c }

/-- `(A << 1) mod 256 | b` (R208, R210). -/
def rotateLeft (a : Byte) (b : Bool) : Byte := (a <<< 1) ||| (if b then 0x01#8 else 0x00#8)

/-- `(A >> 1) | (b << 7)` (R209, R211). -/
def rotateRight (a : Byte) (b : Bool) : Byte := (a >>> 1) ||| (if b then 0x80#8 else 0x00#8)

end Sys2Proof.Machine
end

