-- ==== Sys2Proof/Machine/Arithmetic.lean ====
section
/-! DEFINITION. Arithmetic (41_arithmetic.md R173 to R180), one meaning per instruction. The source is read before A is
written; all five flags come from `CheckFlags` of the 16-bit result. -/

namespace Sys2Proof.Machine

/-- `ADD sss` (R173). -/
def execAdd (src : Reg8) (s : State) : Result :=
  conclude do
    let v ← regRead src s
    .ok (advance 1 (setResult (wideSum s.regs.a v false) s))

/-- `ADC sss` (R174). -/
def execAdc (src : Reg8) (s : State) : Result :=
  conclude do
    let v ← regRead src s
    .ok (advance 1 (setResult (wideSum s.regs.a v s.flags.c) s))

/-- `SUB sss` (R175). -/
def execSub (src : Reg8) (s : State) : Result :=
  conclude do
    let v ← regRead src s
    .ok (advance 1 (setResult (wideDifference s.regs.a v false) s))

/-- `SBB sss` (R176). -/
def execSbb (src : Reg8) (s : State) : Result :=
  conclude do
    let v ← regRead src s
    .ok (advance 1 (setResult (wideDifference s.regs.a v s.flags.c) s))

/-- `ADI d8` (R177). -/
def execAdi (imm : Byte) (s : State) : Result :=
  conclude (.ok (advance 2 (setResult (wideSum s.regs.a imm false) s)))

/-- `ACI d8` (R178). -/
def execAci (imm : Byte) (s : State) : Result :=
  conclude (.ok (advance 2 (setResult (wideSum s.regs.a imm s.flags.c) s)))

/-- `SUI d8` (R179). -/
def execSui (imm : Byte) (s : State) : Result :=
  conclude (.ok (advance 2 (setResult (wideDifference s.regs.a imm false) s)))

/-- `SBI d8` (R180). -/
def execSbi (imm : Byte) (s : State) : Result :=
  conclude (.ok (advance 2 (setResult (wideDifference s.regs.a imm s.flags.c) s)))

end Sys2Proof.Machine
end

