-- ==== Sys2Proof/Machine/Branch.lean ====
section
/-! DEFINITION. Control transfer (43_branch.md R220 to R249), one meaning per instruction. Targets are absolute; no flag is
written; the end-of-memory test after the `pc` update is the last line of the step (Machine/Step.lean). -/

namespace Sys2Proof.Machine

/-- Jump to `t` when `taken`, else go on after three bytes (the Jcc pseudocode before R222). -/
def jumpIf (taken : Bool) (t : Word) (s : State) : State := if taken then s.setPc t.toNat else advance 3 s

/-- The return address `(pc + 3) mod 65536` (R230, D28). -/
def returnAddress (s : State) : Word := BitVec.ofNat 16 (s.pc + 3)

/-- Call `t` when `taken`: push the return address, then jump; else go on after three bytes (before R232). -/
def callIf (taken : Bool) (t : Word) (s : State) : Attempt State :=
  if taken then do
    let s1 ← pushStack (returnAddress s) s
    .ok (s1.setPc t.toNat)
  else .ok (advance 3 s)

/-- Return when `taken`: pop the target; else go on after one byte (before R242). -/
def returnIf (taken : Bool) (s : State) : Attempt State :=
  if taken then do
    let (t, s1) ← popStack s
    .ok (s1.setPc t.toNat)
  else .ok (advance 1 s)

/-- `JMP a16` (R221). -/
def execJmp (addr : Word) (s : State) : Result :=
  conclude (.ok (jumpIf true addr s))

/-- `JNZ a16` (R222). -/
def execJnz (addr : Word) (s : State) : Result :=
  conclude (.ok (jumpIf (condHolds .nz s.flags) addr s))

/-- `JZ a16` (R223). -/
def execJz (addr : Word) (s : State) : Result :=
  conclude (.ok (jumpIf (condHolds .z s.flags) addr s))

/-- `JNC a16` (R224). -/
def execJnc (addr : Word) (s : State) : Result :=
  conclude (.ok (jumpIf (condHolds .nc s.flags) addr s))

/-- `JC a16` (R225). -/
def execJc (addr : Word) (s : State) : Result :=
  conclude (.ok (jumpIf (condHolds .c s.flags) addr s))

/-- `JPO a16` (R226). -/
def execJpo (addr : Word) (s : State) : Result :=
  conclude (.ok (jumpIf (condHolds .po s.flags) addr s))

/-- `JPE a16` (R227). -/
def execJpe (addr : Word) (s : State) : Result :=
  conclude (.ok (jumpIf (condHolds .pe s.flags) addr s))

/-- `JP a16` (R228). -/
def execJp (addr : Word) (s : State) : Result :=
  conclude (.ok (jumpIf (condHolds .p s.flags) addr s))

/-- `JM a16` (R229). -/
def execJm (addr : Word) (s : State) : Result :=
  conclude (.ok (jumpIf (condHolds .m s.flags) addr s))

/-- `CALL a16` (R231). -/
def execCall (addr : Word) (s : State) : Result :=
  conclude (callIf true addr s)

/-- `CNZ a16` (R232). -/
def execCnz (addr : Word) (s : State) : Result :=
  conclude (callIf (condHolds .nz s.flags) addr s)

/-- `CZ a16` (R233). -/
def execCz (addr : Word) (s : State) : Result :=
  conclude (callIf (condHolds .z s.flags) addr s)

/-- `CNC a16` (R234). -/
def execCnc (addr : Word) (s : State) : Result :=
  conclude (callIf (condHolds .nc s.flags) addr s)

/-- `CC a16` (R235). -/
def execCc (addr : Word) (s : State) : Result :=
  conclude (callIf (condHolds .c s.flags) addr s)

/-- `CPO a16` (R236). -/
def execCpo (addr : Word) (s : State) : Result :=
  conclude (callIf (condHolds .po s.flags) addr s)

/-- `CPE a16` (R237). -/
def execCpe (addr : Word) (s : State) : Result :=
  conclude (callIf (condHolds .pe s.flags) addr s)

/-- `CP a16` (R238). -/
def execCp (addr : Word) (s : State) : Result :=
  conclude (callIf (condHolds .p s.flags) addr s)

/-- `CM a16` (R239). -/
def execCm (addr : Word) (s : State) : Result :=
  conclude (callIf (condHolds .m s.flags) addr s)

/-- `RET` (R241). -/
def execRet (s : State) : Result :=
  conclude (returnIf true s)

/-- `RNZ` (R242). -/
def execRnz (s : State) : Result :=
  conclude (returnIf (condHolds .nz s.flags) s)

/-- `RZ` (R243). -/
def execRz (s : State) : Result :=
  conclude (returnIf (condHolds .z s.flags) s)

/-- `RNC` (R244). -/
def execRnc (s : State) : Result :=
  conclude (returnIf (condHolds .nc s.flags) s)

/-- `RC` (R245). -/
def execRc (s : State) : Result :=
  conclude (returnIf (condHolds .c s.flags) s)

/-- `RPO` (R246). -/
def execRpo (s : State) : Result :=
  conclude (returnIf (condHolds .po s.flags) s)

/-- `RPE` (R247). -/
def execRpe (s : State) : Result :=
  conclude (returnIf (condHolds .pe s.flags) s)

/-- `RP` (R248). -/
def execRp (s : State) : Result :=
  conclude (returnIf (condHolds .p s.flags) s)

/-- `RM` (R249). -/
def execRm (s : State) : Result :=
  conclude (returnIf (condHolds .m s.flags) s)

end Sys2Proof.Machine
end

