-- ==== Sys2Proof/Machine/DataTransfer.lean ====
section
/-! DEFINITION. Data transfer (40_data_transfer.md R150 to R156), one meaning per instruction. None writes a flag (10_state.md R29). -/

namespace Sys2Proof.Machine

/-- Load A from memory and advance (R153, R155). -/
def loadA (a : Word) (n : Nat) (s : State) : Attempt State := do
  let v ← memRead a.toNat s
  .ok (advance n (s.setA v))

/-- Store A to memory and advance (R154, R156). -/
def storeA (a : Word) (n : Nat) (s : State) : Attempt State := do
  let s1 ← memWrite a.toNat s.regs.a s
  .ok (advance n s1)

/-- `MOV ddd, sss` (R150): the source is read before the destination is written. -/
def execMov (dst : Reg8) (src : Reg8) (s : State) : Result :=
  conclude do
    let v ← regRead src s
    let s1 ← regWrite dst v s
    .ok (advance 1 s1)

/-- `MVI ddd, d8` (R151). -/
def execMvi (dst : Reg8) (imm : Byte) (s : State) : Result :=
  conclude do
    let s1 ← regWrite dst imm s
    .ok (advance 2 s1)

/-- `LXI B, d16` (R152). -/
def execLxiB (imm : Word) (s : State) : Result :=
  conclude (.ok (advance 3 (pairWrite .b imm s)))

/-- `LXI D, d16` (R152). -/
def execLxiD (imm : Word) (s : State) : Result :=
  conclude (.ok (advance 3 (pairWrite .d imm s)))

/-- `LXI H, d16` (R152). -/
def execLxiH (imm : Word) (s : State) : Result :=
  conclude (.ok (advance 3 (pairWrite .h imm s)))

/-- `LDA a16` (R153). -/
def execLda (addr : Word) (s : State) : Result :=
  conclude (loadA addr 3 s)

/-- `STA a16` (R154). -/
def execSta (addr : Word) (s : State) : Result :=
  conclude (storeA addr 3 s)

/-- `LDAX B` (R155). -/
def execLdaxB (s : State) : Result :=
  conclude (loadA (pairRead .b s) 1 s)

/-- `STAX B` (R156). -/
def execStaxB (s : State) : Result :=
  conclude (storeA (pairRead .b s) 1 s)

/-- `LDAX D` (R155). -/
def execLdaxD (s : State) : Result :=
  conclude (loadA (pairRead .d s) 1 s)

/-- `STAX D` (R156). -/
def execStaxD (s : State) : Result :=
  conclude (storeA (pairRead .d s) 1 s)

end Sys2Proof.Machine
end

