-- ==== Sys2Proof/Machine/Logical.lean ====
section
/-! DEFINITION. Logic, compare, rotates and set-carry (42_logical.md R192 to R199, R208 to R212), one meaning per
instruction. The bitwise operations set the flags by `CheckFlags` of the 8-bit result (R190). -/

namespace Sys2Proof.Machine

/-- `ANA sss` (R192). -/
def execAna (src : Reg8) (s : State) : Result :=
  conclude do
    let v ← regRead src s
    .ok (advance 1 (setResult (wideByte (s.regs.a &&& v)) s))

/-- `XRA sss` (R193). -/
def execXra (src : Reg8) (s : State) : Result :=
  conclude do
    let v ← regRead src s
    .ok (advance 1 (setResult (wideByte (s.regs.a ^^^ v)) s))

/-- `ORA sss` (R194). -/
def execOra (src : Reg8) (s : State) : Result :=
  conclude do
    let v ← regRead src s
    .ok (advance 1 (setResult (wideByte (s.regs.a ||| v)) s))

/-- `CMP sss` (R195): A is not written. -/
def execCmp (src : Reg8) (s : State) : Result :=
  conclude do
    let v ← regRead src s
    .ok (advance 1 (setCompare v s))

/-- `ANI d8` (R196). -/
def execAni (imm : Byte) (s : State) : Result :=
  conclude (.ok (advance 2 (setResult (wideByte (s.regs.a &&& imm)) s)))

/-- `XRI d8` (R197). -/
def execXri (imm : Byte) (s : State) : Result :=
  conclude (.ok (advance 2 (setResult (wideByte (s.regs.a ^^^ imm)) s)))

/-- `ORI d8` (R198). -/
def execOri (imm : Byte) (s : State) : Result :=
  conclude (.ok (advance 2 (setResult (wideByte (s.regs.a ||| imm)) s)))

/-- `CPI d8` (R199): A is not written. -/
def execCpi (imm : Byte) (s : State) : Result :=
  conclude (.ok (advance 2 (setCompare imm s)))

/-- `RLC` (R208): Carry takes the bit that leaves A; no other flag is written. -/
def execRlc (s : State) : Result :=
  conclude (.ok (advance 1 (setCarry (s.regs.a.getLsbD 7) (s.setA (rotateLeft s.regs.a (s.regs.a.getLsbD 7))))))

/-- `RRC` (R209): Carry takes the bit that leaves A; no other flag is written. -/
def execRrc (s : State) : Result :=
  conclude (.ok (advance 1 (setCarry (s.regs.a.getLsbD 0) (s.setA (rotateRight s.regs.a (s.regs.a.getLsbD 0))))))

/-- `RAL` (R210): Carry takes the bit that leaves A; no other flag is written. -/
def execRal (s : State) : Result :=
  conclude (.ok (advance 1 (setCarry (s.regs.a.getLsbD 7) (s.setA (rotateLeft s.regs.a s.flags.c)))))

/-- `RAR` (R211): Carry takes the bit that leaves A; no other flag is written. -/
def execRar (s : State) : Result :=
  conclude (.ok (advance 1 (setCarry (s.regs.a.getLsbD 0) (s.setA (rotateRight s.regs.a s.flags.c)))))

/-- `STC` (R212). -/
def execStc (s : State) : Result :=
  conclude (.ok (advance 1 (setCarry true s)))

end Sys2Proof.Machine
end

