-- ==== Sys2Proof/Machine/StackControl.lean ====
section
/-! DEFINITION. PUSH, POP, NOP and HLT (44_stack_control.md R262 to R267), one meaning per instruction. -/

namespace Sys2Proof.Machine

/-- Push a register pair and advance (R262). -/
def pushPair (p : Pair) (s : State) : Attempt State := do
  let s1 ← pushStack (pairRead p s) s
  .ok (advance 1 s1)

/-- Pop a register pair and advance (R263). -/
def popPair (p : Pair) (s : State) : Attempt State := do
  let (v, s1) ← popStack s
  .ok (advance 1 (pairWrite p v s1))

/-- `PUSH B` (R262). -/
def execPushB (s : State) : Result :=
  conclude (pushPair .b s)

/-- `POP B` (R263). -/
def execPopB (s : State) : Result :=
  conclude (popPair .b s)

/-- `PUSH D` (R262). -/
def execPushD (s : State) : Result :=
  conclude (pushPair .d s)

/-- `POP D` (R263). -/
def execPopD (s : State) : Result :=
  conclude (popPair .d s)

/-- `PUSH H` (R262). -/
def execPushH (s : State) : Result :=
  conclude (pushPair .h s)

/-- `POP H` (R263). -/
def execPopH (s : State) : Result :=
  conclude (popPair .h s)

/-- `NOP` (R266). -/
def execNop (s : State) : Result :=
  conclude (.ok (advance 1 s))

/-- `HLT` (R267): the engine stops and `pc` advances (D25). -/
def execHlt (s : State) : Result :=
  conclude (.ok (advance 1 (s.setRunning false)))

end Sys2Proof.Machine
end

