-- ==== Sys2Proof/Machine/Dispatch.lean ====
section
/-! DEFINITION. One arm per instruction, each one call of its meaning. -/

namespace Sys2Proof.Machine

def exec (i : Instr) (s : State) : Host.Outcome State Fault Refusal :=
  match i with
  | .nop => Sys2Proof.Machine.execNop s
  | .hlt => Sys2Proof.Machine.execHlt s
  | .mov dst src => Sys2Proof.Machine.execMov dst src s
  | .mvi dst imm => Sys2Proof.Machine.execMvi dst imm s
  | .lxiB imm => Sys2Proof.Machine.execLxiB imm s
  | .lxiD imm => Sys2Proof.Machine.execLxiD imm s
  | .lxiH imm => Sys2Proof.Machine.execLxiH imm s
  | .staxB => Sys2Proof.Machine.execStaxB s
  | .ldaxB => Sys2Proof.Machine.execLdaxB s
  | .staxD => Sys2Proof.Machine.execStaxD s
  | .ldaxD => Sys2Proof.Machine.execLdaxD s
  | .rlc => Sys2Proof.Machine.execRlc s
  | .rrc => Sys2Proof.Machine.execRrc s
  | .ral => Sys2Proof.Machine.execRal s
  | .rar => Sys2Proof.Machine.execRar s
  | .stc => Sys2Proof.Machine.execStc s
  | .sta addr => Sys2Proof.Machine.execSta addr s
  | .lda addr => Sys2Proof.Machine.execLda addr s
  | .add src => Sys2Proof.Machine.execAdd src s
  | .adc src => Sys2Proof.Machine.execAdc src s
  | .sub src => Sys2Proof.Machine.execSub src s
  | .sbb src => Sys2Proof.Machine.execSbb src s
  | .ana src => Sys2Proof.Machine.execAna src s
  | .xra src => Sys2Proof.Machine.execXra src s
  | .ora src => Sys2Proof.Machine.execOra src s
  | .cmp src => Sys2Proof.Machine.execCmp src s
  | .adi imm => Sys2Proof.Machine.execAdi imm s
  | .aci imm => Sys2Proof.Machine.execAci imm s
  | .sui imm => Sys2Proof.Machine.execSui imm s
  | .sbi imm => Sys2Proof.Machine.execSbi imm s
  | .ani imm => Sys2Proof.Machine.execAni imm s
  | .xri imm => Sys2Proof.Machine.execXri imm s
  | .ori imm => Sys2Proof.Machine.execOri imm s
  | .cpi imm => Sys2Proof.Machine.execCpi imm s
  | .jmp addr => Sys2Proof.Machine.execJmp addr s
  | .jnz addr => Sys2Proof.Machine.execJnz addr s
  | .jz addr => Sys2Proof.Machine.execJz addr s
  | .jnc addr => Sys2Proof.Machine.execJnc addr s
  | .jc addr => Sys2Proof.Machine.execJc addr s
  | .jpo addr => Sys2Proof.Machine.execJpo addr s
  | .jpe addr => Sys2Proof.Machine.execJpe addr s
  | .jp addr => Sys2Proof.Machine.execJp addr s
  | .jm addr => Sys2Proof.Machine.execJm addr s
  | .call addr => Sys2Proof.Machine.execCall addr s
  | .cnz addr => Sys2Proof.Machine.execCnz addr s
  | .cz addr => Sys2Proof.Machine.execCz addr s
  | .cnc addr => Sys2Proof.Machine.execCnc addr s
  | .cc addr => Sys2Proof.Machine.execCc addr s
  | .cpo addr => Sys2Proof.Machine.execCpo addr s
  | .cpe addr => Sys2Proof.Machine.execCpe addr s
  | .cp addr => Sys2Proof.Machine.execCp addr s
  | .cm addr => Sys2Proof.Machine.execCm addr s
  | .ret => Sys2Proof.Machine.execRet s
  | .rnz => Sys2Proof.Machine.execRnz s
  | .rz => Sys2Proof.Machine.execRz s
  | .rnc => Sys2Proof.Machine.execRnc s
  | .rc => Sys2Proof.Machine.execRc s
  | .rpo => Sys2Proof.Machine.execRpo s
  | .rpe => Sys2Proof.Machine.execRpe s
  | .rp => Sys2Proof.Machine.execRp s
  | .rm => Sys2Proof.Machine.execRm s
  | .pushB => Sys2Proof.Machine.execPushB s
  | .popB => Sys2Proof.Machine.execPopB s
  | .pushD => Sys2Proof.Machine.execPushD s
  | .popD => Sys2Proof.Machine.execPopD s
  | .pushH => Sys2Proof.Machine.execPushH s
  | .popH => Sys2Proof.Machine.execPopH s

end Sys2Proof.Machine
end

