-- ==== Sys2Proof/WellFormed.lean ====
section
/-! DEFINITION. The one check an instruction's operands must pass: the MOV whose byte is HLT's does not exist, which
under HLT = 0x76 is `MOV M,M` (30_encoding.md R111). Every other operand value the syntax admits is an instruction
(R109). -/

namespace Sys2Proof

/-- Register number (10_state.md R21). -/
def Reg8.num : Reg8 → BitVec 3
  | .b => 0b000#3
  | .c => 0b001#3
  | .d => 0b010#3
  | .e => 0b011#3
  | .h => 0b100#3
  | .l => 0b101#3
  | .m => 0b110#3
  | .a => 0b111#3

/-- A byte `pp fff sss` of three fields (30_encoding.md R102, R109). -/
def patternByte (top : BitVec 2) (field low : BitVec 3) : Byte := top ++ field ++ low

/-- `01 ddd sss`, the byte of a MOV (R107, R109). -/
def movByte (dst src : Reg8) : Byte := patternByte 0b01#2 dst.num src.num

/-- Whether the term is an instruction of the machine with this opcode table. -/
def Instr.wf (t : OpcodeTable) : Instr → Bool
  | .nop => true
  | .hlt => true
  | .mov dst src => !decide (movByte dst src = t.hlt)
  | .mvi _ _ => true
  | .lxiB _ => true
  | .lxiD _ => true
  | .lxiH _ => true
  | .staxB => true
  | .ldaxB => true
  | .staxD => true
  | .ldaxD => true
  | .rlc => true
  | .rrc => true
  | .ral => true
  | .rar => true
  | .stc => true
  | .sta _ => true
  | .lda _ => true
  | .add _ => true
  | .adc _ => true
  | .sub _ => true
  | .sbb _ => true
  | .ana _ => true
  | .xra _ => true
  | .ora _ => true
  | .cmp _ => true
  | .adi _ => true
  | .aci _ => true
  | .sui _ => true
  | .sbi _ => true
  | .ani _ => true
  | .xri _ => true
  | .ori _ => true
  | .cpi _ => true
  | .jmp _ => true
  | .jnz _ => true
  | .jz _ => true
  | .jnc _ => true
  | .jc _ => true
  | .jpo _ => true
  | .jpe _ => true
  | .jp _ => true
  | .jm _ => true
  | .call _ => true
  | .cnz _ => true
  | .cz _ => true
  | .cnc _ => true
  | .cc _ => true
  | .cpo _ => true
  | .cpe _ => true
  | .cp _ => true
  | .cm _ => true
  | .ret => true
  | .rnz => true
  | .rz => true
  | .rnc => true
  | .rc => true
  | .rpo => true
  | .rpe => true
  | .rp => true
  | .rm => true
  | .pushB => true
  | .popB => true
  | .pushD => true
  | .popD => true
  | .pushH => true
  | .popH => true

end Sys2Proof
end

