-- ==== Sys2Proof/Decode.lean ====
section
/-! DEFINITION. The decoder, in the two stages of 30_encoding.md R106, and the encoder, both for any opcode table
(10_state.md R36). The decoder searches the table's rows and cuts fields out of the block bytes; the encoder takes the
instruction's byte from the table and builds the block bytes from the patterns of R102 and R109. -/

namespace Sys2Proof

/-- Register name of a 3-bit register number (10_state.md R21). -/
def Reg8.ofNum (n : BitVec 3) : Reg8 :=
  match n.toNat with
  | 0 => .b
  | 1 => .c
  | 2 => .d
  | 3 => .e
  | 4 => .h
  | 5 => .l
  | 6 => .m
  | _ => .a

/-- What an opcode byte says: the format (R101) and the instruction, which still waits for its operand bytes. -/
inductive Form where
  /-- Format `OP`: the opcode byte is the whole instruction. -/
  | op (i : Instr)
  /-- Format `OP_D8`: one operand byte follows. -/
  | d8 (f : Byte → Instr)
  /-- Format `OP_D16`: two operand bytes follow, the low one first. -/
  | d16 (f : Word → Instr)

/-- The length in bytes of an instruction of this format (R101). -/
def Form.length : Form → Nat
  | .op _ => 1
  | .d8 _ => 2
  | .d16 _ => 3

/-- The instruction of this format with the given operand byte or word (R104, R105); the first operand byte is the
low byte of the word, and a format with no operand uses neither. -/
def Form.withOperands : Form → Byte → Byte → Instr
  | .op i, _, _ => i
  | .d8 f, b1, _ => f b1
  | .d16 f, b1, b2 => f (wordOf b1 b2)

/-- NOP, HLT, the rotates, STC and the direct moves of A. -/
def OpcodeTable.plainRows (t : OpcodeTable) : List (Byte × Form) :=
  [(t.nop, .op .nop), (t.hlt, .op .hlt), (t.rlc, .op .rlc), (t.rrc, .op .rrc), (t.ral, .op .ral), (t.rar, .op .rar),
   (t.stc, .op .stc), (t.sta, .d16 .sta), (t.lda, .d16 .lda)]

/-- MVI, one row per register or `M`. -/
def OpcodeTable.mviRows (t : OpcodeTable) : List (Byte × Form) :=
  [(t.mvi.b, .d8 (.mvi .b)), (t.mvi.c, .d8 (.mvi .c)), (t.mvi.d, .d8 (.mvi .d)), (t.mvi.e, .d8 (.mvi .e)),
   (t.mvi.h, .d8 (.mvi .h)), (t.mvi.l, .d8 (.mvi .l)), (t.mvi.m, .d8 (.mvi .m)), (t.mvi.a, .d8 (.mvi .a))]

/-- The pair instructions LXI, STAX, LDAX, PUSH, POP. -/
def OpcodeTable.pairRows (t : OpcodeTable) : List (Byte × Form) :=
  [(t.lxi.b, .d16 .lxiB), (t.lxi.d, .d16 .lxiD), (t.lxi.h, .d16 .lxiH), (t.stax.b, .op .staxB), (t.stax.d, .op .staxD),
   (t.ldax.b, .op .ldaxB), (t.ldax.d, .op .ldaxD), (t.push.b, .op .pushB), (t.push.d, .op .pushD),
   (t.push.h, .op .pushH), (t.pop.b, .op .popB), (t.pop.d, .op .popD), (t.pop.h, .op .popH)]

/-- The immediate arithmetic and logic group. -/
def OpcodeTable.immediateRows (t : OpcodeTable) : List (Byte × Form) :=
  [(t.adi, .d8 .adi), (t.aci, .d8 .aci), (t.sui, .d8 .sui), (t.sbi, .d8 .sbi), (t.ani, .d8 .ani), (t.xri, .d8 .xri),
   (t.ori, .d8 .ori), (t.cpi, .d8 .cpi)]

/-- JMP and the conditional jumps. -/
def OpcodeTable.jumpRows (t : OpcodeTable) : List (Byte × Form) :=
  [(t.jmp, .d16 .jmp), (t.jcc.nz, .d16 .jnz), (t.jcc.z, .d16 .jz), (t.jcc.nc, .d16 .jnc), (t.jcc.c, .d16 .jc),
   (t.jcc.po, .d16 .jpo), (t.jcc.pe, .d16 .jpe), (t.jcc.p, .d16 .jp), (t.jcc.m, .d16 .jm)]

/-- CALL and the conditional calls. -/
def OpcodeTable.callRows (t : OpcodeTable) : List (Byte × Form) :=
  [(t.call, .d16 .call), (t.ccc.nz, .d16 .cnz), (t.ccc.z, .d16 .cz), (t.ccc.nc, .d16 .cnc), (t.ccc.c, .d16 .cc),
   (t.ccc.po, .d16 .cpo), (t.ccc.pe, .d16 .cpe), (t.ccc.p, .d16 .cp), (t.ccc.m, .d16 .cm)]

/-- RET and the conditional returns. -/
def OpcodeTable.returnRows (t : OpcodeTable) : List (Byte × Form) :=
  [(t.ret, .op .ret), (t.rcc.nz, .op .rnz), (t.rcc.z, .op .rz), (t.rcc.nc, .op .rnc), (t.rcc.c, .op .rc),
   (t.rcc.po, .op .rpo), (t.rcc.pe, .op .rpe), (t.rcc.p, .op .rp), (t.rcc.m, .op .rm)]

/-- The fixed table of stage 1 (R106): every exact opcode byte, its format and its instruction (R101, R109). -/
def OpcodeTable.rows (t : OpcodeTable) : List (Byte × Form) :=
  t.plainRows ++ t.mviRows ++ t.pairRows ++ t.immediateRows ++ t.jumpRows ++ t.callRows ++ t.returnRows

/-- Exact byte match in a fixed table (R106, stage 1). -/
def lookupOpcode (op : Byte) : List (Byte × Form) → Option Form
  | [] => none
  | (key, form) :: rest => if op = key then some form else lookupOpcode op rest

/-- The field `ddd`, bits 5:3 (R102). -/
def fieldDst (op : Byte) : Reg8 := Reg8.ofNum (op.extractLsb' 3 3)

/-- The field `sss`, bits 2:0 (R102). -/
def fieldSrc (op : Byte) : Reg8 := Reg8.ofNum (op.extractLsb' 0 3)

/-- The `mov` decoder: the block 0x40 to 0x7F (R107). -/
def decodeMov (op : Byte) : Option Instr :=
  if op.extractLsb' 6 2 = 0b01#2 then some (.mov (fieldDst op) (fieldSrc op)) else none

/-- The `add` decoder: the block 0x80 to 0x8F, bit 3 selects plain or with-carry (R107). -/
def decodeAdd (op : Byte) : Option Instr :=
  if op.extractLsb' 4 4 = 0b1000#4 then
    some (if op.getLsbD 3 then .adc (fieldSrc op) else .add (fieldSrc op))
  else none

/-- The `sub` decoder: the block 0x90 to 0x9F, bit 3 selects plain or with-carry (R107). -/
def decodeSub (op : Byte) : Option Instr :=
  if op.extractLsb' 4 4 = 0b1001#4 then
    some (if op.getLsbD 3 then .sbb (fieldSrc op) else .sub (fieldSrc op))
  else none

/-- The `cmp`/`or`/`xor`/`and` decoder: four blocks of eight, placed by the table (R107). -/
def decodeLogic (t : OpcodeTable) (op : Byte) : Option Instr :=
  if op.extractLsb' 3 5 = t.cmp then some (.cmp (fieldSrc op))
  else if op.extractLsb' 3 5 = t.ora then some (.ora (fieldSrc op))
  else if op.extractLsb' 3 5 = t.xra then some (.xra (fieldSrc op))
  else if op.extractLsb' 3 5 = t.ana then some (.ana (fieldSrc op))
  else none

/-- The four variable-field decoders of stage 2, tried in the order of R106. -/
def decodeVariable (t : OpcodeTable) (op : Byte) : Option Instr :=
  match decodeMov op with
  | some i => some i
  | none =>
    match decodeAdd op with
    | some i => some i
    | none =>
      match decodeSub op with
      | some i => some i
      | none => decodeLogic t op

/-- Decoding one opcode byte: the fixed table first, then the variable-field decoders (R106); `none` is an
unrecognized opcode (R113). -/
def decodeOpcode (t : OpcodeTable) (op : Byte) : Option Form :=
  match lookupOpcode op t.rows with
  | some form => some form
  | none =>
    match decodeVariable t op with
    | some i => some (.op i)
    | none => none

/-- The length of an instruction, a function of its opcode byte alone (R103). -/
def opcodeLength (t : OpcodeTable) (op : Byte) : Option Nat :=
  match decodeOpcode t op with
  | some form => some form.length
  | none => none

/-- Why a byte sequence is no instruction. -/
inductive DecodeError where
  /-- There is no opcode byte. -/
  | noBytes
  /-- The opcode byte is neither in the table nor in a block (R113). -/
  | unrecognizedOpcode (op : Byte)
  /-- The sequence ends before the operand bytes the opcode asks for (R103). -/
  | missingOperand (op : Byte)
deriving DecidableEq, Repr

/-- The instruction at the head of a byte sequence, and the bytes after it. Total on any bytes and any table. -/
def decode (t : OpcodeTable) : List Byte → Except DecodeError (Instr × List Byte)
  | [] => .error .noBytes
  | op :: rest =>
    match decodeOpcode t op with
    | none => .error (.unrecognizedOpcode op)
    | some (.op i) => .ok (i, rest)
    | some (.d8 f) =>
      match rest with
      | imm :: rest => .ok (f imm, rest)
      | [] => .error (.missingOperand op)
    | some (.d16 f) =>
      match rest with
      | lo :: hi :: rest => .ok (f (wordOf lo hi), rest)
      | _ => .error (.missingOperand op)

/-- Byte 0 of an instruction: the table's byte, or the block's base and the register number (R102, R107, R109). -/
def Instr.opcode (t : OpcodeTable) : Instr → Byte
  | .nop => t.nop
  | .hlt => t.hlt
  | .mov dst src => movByte dst src
  | .mvi dst _ => t.mvi.byteOf dst
  | .lxiB _ => t.lxi.b
  | .lxiD _ => t.lxi.d
  | .lxiH _ => t.lxi.h
  | .staxB => t.stax.b
  | .ldaxB => t.ldax.b
  | .staxD => t.stax.d
  | .ldaxD => t.ldax.d
  | .rlc => t.rlc
  | .rrc => t.rrc
  | .ral => t.ral
  | .rar => t.rar
  | .stc => t.stc
  | .sta _ => t.sta
  | .lda _ => t.lda
  | .add src => patternByte 0b10#2 0b000#3 src.num
  | .adc src => patternByte 0b10#2 0b001#3 src.num
  | .sub src => patternByte 0b10#2 0b010#3 src.num
  | .sbb src => patternByte 0b10#2 0b011#3 src.num
  | .ana src => t.ana ++ src.num
  | .xra src => t.xra ++ src.num
  | .ora src => t.ora ++ src.num
  | .cmp src => t.cmp ++ src.num
  | .adi _ => t.adi
  | .aci _ => t.aci
  | .sui _ => t.sui
  | .sbi _ => t.sbi
  | .ani _ => t.ani
  | .xri _ => t.xri
  | .ori _ => t.ori
  | .cpi _ => t.cpi
  | .jmp _ => t.jmp
  | .jnz _ => t.jcc.nz
  | .jz _ => t.jcc.z
  | .jnc _ => t.jcc.nc
  | .jc _ => t.jcc.c
  | .jpo _ => t.jcc.po
  | .jpe _ => t.jcc.pe
  | .jp _ => t.jcc.p
  | .jm _ => t.jcc.m
  | .call _ => t.call
  | .cnz _ => t.ccc.nz
  | .cz _ => t.ccc.z
  | .cnc _ => t.ccc.nc
  | .cc _ => t.ccc.c
  | .cpo _ => t.ccc.po
  | .cpe _ => t.ccc.pe
  | .cp _ => t.ccc.p
  | .cm _ => t.ccc.m
  | .ret => t.ret
  | .rnz => t.rcc.nz
  | .rz => t.rcc.z
  | .rnc => t.rcc.nc
  | .rc => t.rcc.c
  | .rpo => t.rcc.po
  | .rpe => t.rcc.pe
  | .rp => t.rcc.p
  | .rm => t.rcc.m
  | .pushB => t.push.b
  | .popB => t.pop.b
  | .pushD => t.push.d
  | .popD => t.pop.d
  | .pushH => t.push.h
  | .popH => t.pop.h

/-- The operand bytes of an instruction, the low byte of a word first (R101, R104, R105). -/
def Instr.operandBytes : Instr → List Byte
  | .nop => []
  | .hlt => []
  | .mov _ _ => []
  | .mvi _ imm => [imm]
  | .lxiB imm => [lo8 imm, hi8 imm]
  | .lxiD imm => [lo8 imm, hi8 imm]
  | .lxiH imm => [lo8 imm, hi8 imm]
  | .staxB => []
  | .ldaxB => []
  | .staxD => []
  | .ldaxD => []
  | .rlc => []
  | .rrc => []
  | .ral => []
  | .rar => []
  | .stc => []
  | .sta addr => [lo8 addr, hi8 addr]
  | .lda addr => [lo8 addr, hi8 addr]
  | .add _ => []
  | .adc _ => []
  | .sub _ => []
  | .sbb _ => []
  | .ana _ => []
  | .xra _ => []
  | .ora _ => []
  | .cmp _ => []
  | .adi imm => [imm]
  | .aci imm => [imm]
  | .sui imm => [imm]
  | .sbi imm => [imm]
  | .ani imm => [imm]
  | .xri imm => [imm]
  | .ori imm => [imm]
  | .cpi imm => [imm]
  | .jmp addr => [lo8 addr, hi8 addr]
  | .jnz addr => [lo8 addr, hi8 addr]
  | .jz addr => [lo8 addr, hi8 addr]
  | .jnc addr => [lo8 addr, hi8 addr]
  | .jc addr => [lo8 addr, hi8 addr]
  | .jpo addr => [lo8 addr, hi8 addr]
  | .jpe addr => [lo8 addr, hi8 addr]
  | .jp addr => [lo8 addr, hi8 addr]
  | .jm addr => [lo8 addr, hi8 addr]
  | .call addr => [lo8 addr, hi8 addr]
  | .cnz addr => [lo8 addr, hi8 addr]
  | .cz addr => [lo8 addr, hi8 addr]
  | .cnc addr => [lo8 addr, hi8 addr]
  | .cc addr => [lo8 addr, hi8 addr]
  | .cpo addr => [lo8 addr, hi8 addr]
  | .cpe addr => [lo8 addr, hi8 addr]
  | .cp addr => [lo8 addr, hi8 addr]
  | .cm addr => [lo8 addr, hi8 addr]
  | .ret => []
  | .rnz => []
  | .rz => []
  | .rnc => []
  | .rc => []
  | .rpo => []
  | .rpe => []
  | .rp => []
  | .rm => []
  | .pushB => []
  | .popB => []
  | .pushD => []
  | .popD => []
  | .pushH => []
  | .popH => []

/-- The bytes of an instruction (R100, R101). -/
def encode (t : OpcodeTable) (i : Instr) : List Byte := i.opcode t :: i.operandBytes

/-- The length of an instruction in bytes, 1 to 3, whatever the table (R100, R103). -/
def Instr.length (i : Instr) : Nat := i.operandBytes.length + 1

/-- The instruction the decoder reads from an instruction whose bits are `w`, numbered from the least significant
bit of the first byte; every bit from `nbits` on is 0. The opcode table is R109's, which spec/opcode_table.json lists.
The longest instruction has three bytes (R100). -/
def decodeTableWord (nbits w : Nat) : Option Instr :=
  match decode OpcodeTable.intel8080 (bytesOfNat 3 (w % 2 ^ nbits)) with
  | .ok (i, _) => some i
  | .error _ => none

end Sys2Proof
end

