-- ==== Sys2Proof/Machine/Fetch.lean ====
section
/-! DEFINITION. Fetching an instruction: the opcode byte, decoding, then the operand bytes the opcode asks for
(00_scope.md R16, 30_encoding.md R103, 60_exceptions.md R291). Nothing is written while fetching. -/

namespace Sys2Proof.Machine

/-- The operand bytes of a format, at `pc+1` and `pc+2` (R16, R101). -/
def fetchOperands (form : Form) (s : State) : Attempt Instr :=
  match form with
  | .op i => .ok i
  | .d8 f => do
    let imm ← memRead (s.pc + 1) s
    .ok (f imm)
  | .d16 f => do
    let w ← memRead16 (s.pc + 1) s
    .ok (f w)

/-- The instruction at `pc`: an unrecognized opcode is raised before any operand is fetched (R284). -/
def fetch (s : State) : Attempt Instr := do
  let op ← memRead s.pc s
  match decodeOpcode s.cfg.opc op with
  | none => raiseFault (.unrecognizedOpcode op s.pc) s
  | some form => fetchOperands form s

/-- Store the bytes of a number at `pc` and the addresses after it, as far as they name cells, with no check: a
program byte put where the next step fetches. -/
def placeAtPc (s : State) (bytes : List Byte) : State :=
  s.setMem (s.mem.load s.pc (bytes.take (s.cfg.totalSize + 1 - s.pc)))

end Sys2Proof.Machine
end

