-- ==== Sys2Proof/Machine/Step.lean ====
section
/-! DEFINITION. `Step()`, the one transition of the engine (70_reset_and_hazards.md R336). -/

namespace Sys2Proof.Machine

/-- The last line of R336: after the instruction, the end-of-memory test. -/
def settle : Result → Result
  | .next s => .next (stopAtEnd s)
  | .fault r => .fault r
  | .refused r => .refused r

/-- `Step()` (R336), line by line. It does not consult `running` and does not set it (R33, D23). A configuration
that breaks R330 is refused before any rule applies (U6; log 10). -/
def step (s : State) : Host.Outcome State Fault Refusal :=
  if s.cfg.wf then
    match s.fault with
    | some _ => .next s
    | none =>
      if s.cfg.totalSize ≤ s.pc then .next (s.setRunning false)
      else
        match fetch s with
        | .ok i => settle (exec i s)
        | .error r => .next (takeFault r)
  else .refused .illFormedConfig

/-- `s` with the instruction of the bits `w` where the next step fetches: three bytes at `pc`, the longest
instruction there is (30_encoding.md R100). It stands for a program the host loads (SetCode and Reset; log 4). -/
def State.withFetchWord (s : State) (nbits w : Nat) : State := placeAtPc s (bytesOfNat 3 (w % 2 ^ nbits))

end Sys2Proof.Machine
end

