-- ==== Sys2Proof/Machine/Commands.lean ====
section
/-! DEFINITION. The host's commands (10_state.md R41, 70_reset_and_hazards.md R320 to R340), each atomic and between
steps. What a command leaves unspecified (registers and flags after Construct and Reset) is an argument of it. -/

namespace Sys2Proof.Machine

/-- The engine after `Construct(cfg)` (R320): all memory 0, nothing loaded, stopped. `regs` and `flags` are any
values (R44). -/
def freshEngine (cfg : Config) (regs : Regs) (flags : Flags) : State where
  cfg := cfg
  regs := regs
  flags := flags
  pc := cfg.offset
  mem := Memory.cleared
  running := false
  fault := none
  protectedMemoryLength := 0
  romImage := []
  ports := []

/-- `Construct(cfg)` (R320); a configuration that breaks R330 is refused (U6). -/
def construct (cfg : Config) (regs : Regs) (flags : Flags) : Result :=
  if cfg.wf then .next (freshEngine cfg regs flags) else .refused .illFormedConfig

/-- `ClearMemory()` (R321): no protection check and no event; the image is wiped too. -/
def clearMemory (s : State) : State := (s.setMem Memory.cleared).setImage [] 0

/-- `SetCode(image, length)` (R322): `mem` is untouched until Reset. -/
def setCode (image : List Byte) (length : Nat) (s : State) : Result :=
  if image.length ≤ s.cfg.totalSize + 1 then .next (s.setImage image length) else .refused .imageTooLong

/-- The start of `Run()` (R338): Running, and one immediate step. With a fault latched it does nothing (R289;
log 11). -/
def beginRun (s : State) : Result :=
  match s.fault with
  | some _ => .next s
  | none => step (s.setRunning true)

/-- `while running: Step()` (R338), at most `n` turns; a Stop of the host falls between two of these. -/
def runLoop : Nat → State → Result
  | 0, s => .next s
  | n + 1, s =>
    if s.running then
      match step s with
      | .next t => runLoop n t
      | .fault r => .fault r
      | .refused r => .refused r
    else .next s

/-- `Stop()` (R340). -/
def stopEngine (s : State) : State := s.setRunning false

/-- `HostRead(a)` (R339): no effect. -/
def hostRead (a : Nat) (s : State) : Except Fault Byte :=
  if s.cfg.totalSize < a then .error (.memoryRange a) else .ok (s.mem.read a)

/-- `HostWrite(a, v)` (R339): the checks of `MemWrite` in its order (R68), the store and the port event; a failed check
is reported to the host and latches nothing. While the engine runs it is refused (U13, D27). -/
def hostWrite (a : Nat) (v : Byte) (s : State) : Result :=
  if s.running then .refused .hostWriteWhileRunning
  else if a < s.cfg.romSize then .fault (.protectedMemoryWrite a)
  else if s.cfg.totalSize < a then .fault (.memoryRange a)
  else .next (storeByte a v s)

/-- One byte of a raw binary load (R323): `HostWrite` without the protection check. -/
def rawLoad (a : Nat) (v : Byte) (s : State) : Result :=
  if s.running then .refused .hostWriteWhileRunning
  else if s.cfg.totalSize < a then .fault (.memoryRange a)
  else .next (storeByte a v s)

/-- The host's commands on a constructed engine (R41). -/
inductive Command where
  /-- `ClearMemory` (R321). -/
  | clearMemory
  /-- `SetCode(image, length)` (R322). -/
  | setCode (image : List Byte) (length : Nat)
  /-- `Reset` (R326), leaving any registers and flags (R44). -/
  | reset (regs : Regs) (flags : Flags)
  /-- `Step` (R336). -/
  | step
  /-- `Run`: its first, immediate step (R338). -/
  | run
  /-- One turn of the run loop (R338). -/
  | loopTurn
  /-- The turns of the run loop up to its next yield: `StepsBeforeSleep` of them (R338). -/
  | batch
  /-- `Stop` (R340). -/
  | stop
  /-- `HostWrite(a, v)` (R339). -/
  | hostWrite (addr : Nat) (value : Byte)
  /-- One byte of a raw load (R323). -/
  | rawLoad (addr : Nat) (value : Byte)
deriving DecidableEq, Repr

/-- What a command does (R41). -/
def perform (c : Command) (s : State) : Result :=
  match c with
  | .clearMemory => .next (clearMemory s)
  | .setCode image length => setCode image length s
  | .reset regs flags => .next (resetEngine regs flags s)
  | .step => step s
  | .run => beginRun s
  | .loopTurn => runLoop 1 s
  | .batch => runLoop s.cfg.stepsBeforeSleep s
  | .stop => .next (stopEngine s)
  | .hostWrite a v => hostWrite a v s
  | .rawLoad a v => rawLoad a v s

end Sys2Proof.Machine
end

