-- ==== Sys2Proof/Safety.lean ====
section
/-! DEFINITION. The terms statements are made in: which accesses succeed, the invariant of the machine, and the
four ways a run ends (70_reset_and_hazards.md R341). -/

namespace Sys2Proof.Machine

/-- The address names a cell, so a read succeeds (20_memory.md R66). -/
abbrev State.readable (s : State) (a : Nat) : Prop := a ≤ s.cfg.totalSize

/-- A write to the address succeeds (R68, R70). -/
abbrev State.writable (s : State) (a : Nat) : Prop := s.cfg.romSize ≤ a ∧ a ≤ s.cfg.totalSize

/-- A register operand can be read: `M` needs HL in the array (00_scope.md R13). -/
abbrev State.operandReadable (s : State) (r : Reg8) : Prop := r = .m → s.readable s.hl.toNat

/-- The value of a register operand that can be read (R13, 10_state.md R22). -/
def State.operand (s : State) (r : Reg8) : Byte :=
  match r with
  | .b => s.regs.b
  | .c => s.regs.c
  | .d => s.regs.d
  | .e => s.regs.e
  | .h => s.regs.h
  | .l => s.regs.l
  | .m => s.mem.read s.hl.toNat
  | .a => s.regs.a

/-- The register file with one register replaced. `M` is no register, so it replaces nothing (R22). -/
def Regs.put (r : Regs) (dst : Reg8) (v : Byte) : Regs :=
  match dst with
  | .b => { r with b := v }
  | .c => { r with c := v }
  | .d => { r with d := v }
  | .e => { r with e := v }
  | .h => { r with h := v }
  | .l => { r with l := v }
  | .m => r
  | .a => { r with a := v }

/-- The word the two SP cells hold (10_state.md R30). -/
def State.sp (s : State) : Word :=
  wordOf (s.mem.read s.cfg.stackPointerLocation) (s.mem.read (s.cfg.stackPointerLocation + 1))

/-- Whether the address is one of the two SP cells (00_scope.md R19). -/
abbrev State.isSpCell (s : State) (a : Nat) : Prop :=
  a = s.cfg.stackPointerLocation ∨ a = s.cfg.stackPointerLocation + 1

/-- Whether a fault is latched (10_state.md R37). -/
def State.faulted (s : State) : Bool := s.fault.isSome

/-- What holds in every state a run reaches: the configuration is well-formed (R330), the image fits (R322),
memory is canonical and inside the array (20_memory.md R60), a latched fault goes with Stopped (60_exceptions.md
R288). -/
def State.wf (s : State) : Bool :=
  decide (s.cfg.wf = true ∧ s.romImage.length ≤ s.cfg.totalSize + 1 ∧ s.mem.wf = true ∧
    s.mem.within s.cfg.totalSize = true ∧ (s.fault.isSome = true → s.running = false))

/-- The four ways a run ends (R341). -/
inductive RunEnd where
  | halted
  | ranOffTheEnd
  | faulted
  | stoppedByHost
deriving DecidableEq, Repr

/-- Whether the next step would execute HLT (44_stack_control.md R267). -/
def State.atHalt (s : State) : Bool :=
  match fetch s with
  | .ok i => decide (i = .hlt)
  | .error _ => false

/-- How the run ended, if it did: `last` is the state before its last step, `t` the state it ended in (R341). DESIGN
CHOICE, log 18, in two points R341 leaves open. A HLT whose `pc` then lies at `total_size` counts as halted. A series of
host Steps on a stopped engine that just ceases (no HLT, no fault, `pc` below `total_size`) counts as stopped by the
host, though no `Stop()` was given. -/
def runEnd (last t : State) : Option RunEnd :=
  if t.running then none
  else if t.fault.isSome then some .faulted
  else if last.atHalt && decide (last.pc < last.cfg.totalSize) then some .halted
  else if t.cfg.totalSize ≤ t.pc then some .ranOffTheEnd
  else some .stoppedByHost

/-! ### Tables of the spec that statements are made with -/

/-- The 64 opcode bytes that are not instructions, as 30_encoding.md R113 lists them. -/
def unrecognizedBytes : List Byte :=
  [0x03, 0x04, 0x05, 0x08, 0x09, 0x0B, 0x0C, 0x0D, 0x10, 0x13, 0x14, 0x15, 0x18, 0x19, 0x1B, 0x1C, 0x1D, 0x20, 0x22,
   0x23, 0x24, 0x25, 0x27, 0x28, 0x29, 0x2A, 0x2B, 0x2C, 0x2D, 0x2F, 0x30] ++
  [0x31, 0x33, 0x34, 0x35, 0x38, 0x39, 0x3B, 0x3C, 0x3D, 0x3F] ++
  [0xC7, 0xCB, 0xCF, 0xD3, 0xD7, 0xD9, 0xDB, 0xDD, 0xDF, 0xE3, 0xE7, 0xE9, 0xEB, 0xED, 0xEF, 0xF1, 0xF3, 0xF5, 0xF7,
   0xF9, 0xFB, 0xFD, 0xFF]

/-- JMP and the eight conditional jumps, each with whether it is taken (30_encoding.md R110, 43_branch.md R221 to R229). -/
def jumps (t : Word) (f : Flags) : List (Instr × Bool) :=
  [(.jmp t, true), (.jnz t, !f.z), (.jz t, f.z), (.jnc t, !f.c), (.jc t, f.c), (.jpo t, !f.p), (.jpe t, f.p),
   (.jp t, !f.s), (.jm t, f.s)]

/-- CALL and the eight conditional calls, each with whether it is taken (R110, R231 to R239). -/
def calls (t : Word) (f : Flags) : List (Instr × Bool) :=
  [(.call t, true), (.cnz t, !f.z), (.cz t, f.z), (.cnc t, !f.c), (.cc t, f.c), (.cpo t, !f.p), (.cpe t, f.p),
   (.cp t, !f.s), (.cm t, f.s)]

/-- RET and the eight conditional returns, each with whether it is taken (R110, R241 to R249). -/
def returns (f : Flags) : List (Instr × Bool) :=
  [(.ret, true), (.rnz, !f.z), (.rz, f.z), (.rnc, !f.c), (.rc, f.c), (.rpo, !f.p), (.rpe, f.p), (.rp, !f.s),
   (.rm, f.s)]

/-- Which flags an instruction may write (10_state.md R29). -/
inductive FlagsWritten where
  | none
  | all
  | allButAc
  | carryOnly
deriving DecidableEq, Repr

end Sys2Proof.Machine

namespace Sys2Proof

open Sys2Proof.Machine

/-- Condition number (30_encoding.md R110). -/
def Cond.num : Cond → BitVec 3
  | .nz => 0b000#3
  | .z => 0b001#3
  | .nc => 0b010#3
  | .c => 0b011#3
  | .po => 0b100#3
  | .pe => 0b101#3
  | .p => 0b110#3
  | .m => 0b111#3

/-- Pair number (10_state.md R23). -/
def Pair.num : Pair → BitVec 2
  | .b => 0b00#2
  | .d => 0b01#2
  | .h => 0b10#2

/-- The table of R29. -/
def Instr.flagsWritten : Instr → FlagsWritten
  | .nop => .none
  | .hlt => .none
  | .mov _ _ => .none
  | .mvi _ _ => .none
  | .lxiB _ => .none
  | .lxiD _ => .none
  | .lxiH _ => .none
  | .staxB => .none
  | .ldaxB => .none
  | .staxD => .none
  | .ldaxD => .none
  | .rlc => .carryOnly
  | .rrc => .carryOnly
  | .ral => .carryOnly
  | .rar => .carryOnly
  | .stc => .carryOnly
  | .sta _ => .none
  | .lda _ => .none
  | .add _ => .all
  | .adc _ => .all
  | .sub _ => .all
  | .sbb _ => .all
  | .ana _ => .all
  | .xra _ => .all
  | .ora _ => .all
  | .cmp _ => .allButAc
  | .adi _ => .all
  | .aci _ => .all
  | .sui _ => .all
  | .sbi _ => .all
  | .ani _ => .all
  | .xri _ => .all
  | .ori _ => .all
  | .cpi _ => .allButAc
  | .jmp _ => .none
  | .jnz _ => .none
  | .jz _ => .none
  | .jnc _ => .none
  | .jc _ => .none
  | .jpo _ => .none
  | .jpe _ => .none
  | .jp _ => .none
  | .jm _ => .none
  | .call _ => .none
  | .cnz _ => .none
  | .cz _ => .none
  | .cnc _ => .none
  | .cc _ => .none
  | .cpo _ => .none
  | .cpe _ => .none
  | .cp _ => .none
  | .cm _ => .none
  | .ret => .none
  | .rnz => .none
  | .rz => .none
  | .rnc => .none
  | .rc => .none
  | .rpo => .none
  | .rpe => .none
  | .rp => .none
  | .rm => .none
  | .pushB => .none
  | .popB => .none
  | .pushD => .none
  | .popD => .none
  | .pushH => .none
  | .popH => .none

/-- The registers an instruction may write (R24). A destination `M` writes none. -/
def Instr.registersWritten : Instr → List Reg8
  | .nop => []
  | .hlt => []
  | .mov dst _ => [dst]
  | .mvi dst _ => [dst]
  | .lxiB _ => [.b, .c]
  | .lxiD _ => [.d, .e]
  | .lxiH _ => [.h, .l]
  | .staxB => []
  | .ldaxB => [.a]
  | .staxD => []
  | .ldaxD => [.a]
  | .rlc => [.a]
  | .rrc => [.a]
  | .ral => [.a]
  | .rar => [.a]
  | .stc => []
  | .sta _ => []
  | .lda _ => [.a]
  | .add _ => [.a]
  | .adc _ => [.a]
  | .sub _ => [.a]
  | .sbb _ => [.a]
  | .ana _ => [.a]
  | .xra _ => [.a]
  | .ora _ => [.a]
  | .cmp _ => []
  | .adi _ => [.a]
  | .aci _ => [.a]
  | .sui _ => [.a]
  | .sbi _ => [.a]
  | .ani _ => [.a]
  | .xri _ => [.a]
  | .ori _ => [.a]
  | .cpi _ => []
  | .jmp _ => []
  | .jnz _ => []
  | .jz _ => []
  | .jnc _ => []
  | .jc _ => []
  | .jpo _ => []
  | .jpe _ => []
  | .jp _ => []
  | .jm _ => []
  | .call _ => []
  | .cnz _ => []
  | .cz _ => []
  | .cnc _ => []
  | .cc _ => []
  | .cpo _ => []
  | .cpe _ => []
  | .cp _ => []
  | .cm _ => []
  | .ret => []
  | .rnz => []
  | .rz => []
  | .rnc => []
  | .rc => []
  | .rpo => []
  | .rpe => []
  | .rp => []
  | .rm => []
  | .pushB => []
  | .popB => [.b, .c]
  | .pushD => []
  | .popD => [.d, .e]
  | .pushH => []
  | .popH => [.h, .l]

end Sys2Proof

namespace Sys2Proof.Machine

/-- The two stack bytes of a push and the SP cells, at the addresses `PushStack` computes (44_stack_control.md R260);
none where SP cannot be read. -/
def pushAddresses (s : State) : List Nat :=
  match readSp s with
  | .ok sp => [sp.toNat, (sp - 1#16).toNat, s.cfg.stackPointerLocation, s.cfg.stackPointerLocation + 1]
  | .error _ => []

/-- The SP cells, which a pop writes (R261). -/
def popAddresses (s : State) : List Nat := [s.cfg.stackPointerLocation, s.cfg.stackPointerLocation + 1]

end Sys2Proof.Machine

namespace Sys2Proof

open Sys2Proof.Machine

/-- Every address an instruction may store to, computed as its meaning computes it. -/
def Instr.storedAddresses (i : Instr) (s : State) : List Nat :=
  match i with
  | .nop => []
  | .hlt => []
  | .mov dst _ => if dst = .m then [s.hl.toNat] else []
  | .mvi dst _ => if dst = .m then [s.hl.toNat] else []
  | .lxiB _ => []
  | .lxiD _ => []
  | .lxiH _ => []
  | .staxB => [(pairRead .b s).toNat]
  | .ldaxB => []
  | .staxD => [(pairRead .d s).toNat]
  | .ldaxD => []
  | .rlc => []
  | .rrc => []
  | .ral => []
  | .rar => []
  | .stc => []
  | .sta addr => [addr.toNat]
  | .lda _ => []
  | .add _ => []
  | .adc _ => []
  | .sub _ => []
  | .sbb _ => []
  | .ana _ => []
  | .xra _ => []
  | .ora _ => []
  | .cmp _ => []
  | .adi _ => []
  | .aci _ => []
  | .sui _ => []
  | .sbi _ => []
  | .ani _ => []
  | .xri _ => []
  | .ori _ => []
  | .cpi _ => []
  | .jmp _ => []
  | .jnz _ => []
  | .jz _ => []
  | .jnc _ => []
  | .jc _ => []
  | .jpo _ => []
  | .jpe _ => []
  | .jp _ => []
  | .jm _ => []
  | .call _ => pushAddresses s
  | .cnz _ => if condHolds .nz s.flags then pushAddresses s else []
  | .cz _ => if condHolds .z s.flags then pushAddresses s else []
  | .cnc _ => if condHolds .nc s.flags then pushAddresses s else []
  | .cc _ => if condHolds .c s.flags then pushAddresses s else []
  | .cpo _ => if condHolds .po s.flags then pushAddresses s else []
  | .cpe _ => if condHolds .pe s.flags then pushAddresses s else []
  | .cp _ => if condHolds .p s.flags then pushAddresses s else []
  | .cm _ => if condHolds .m s.flags then pushAddresses s else []
  | .ret => popAddresses s
  | .rnz => if condHolds .nz s.flags then popAddresses s else []
  | .rz => if condHolds .z s.flags then popAddresses s else []
  | .rnc => if condHolds .nc s.flags then popAddresses s else []
  | .rc => if condHolds .c s.flags then popAddresses s else []
  | .rpo => if condHolds .po s.flags then popAddresses s else []
  | .rpe => if condHolds .pe s.flags then popAddresses s else []
  | .rp => if condHolds .p s.flags then popAddresses s else []
  | .rm => if condHolds .m s.flags then popAddresses s else []
  | .pushB => pushAddresses s
  | .popB => popAddresses s
  | .pushD => pushAddresses s
  | .popD => popAddresses s
  | .pushH => pushAddresses s
  | .popH => popAddresses s

end Sys2Proof

namespace Sys2Proof.Machine

/-- The faults of the M operand as a source (60_exceptions.md R285, rows ADD..CMP and MOV r,M). -/
def sourceFaults (r : Reg8) (s : State) : List FaultRecord := if r = .m then [.memoryRange s.hl.toNat] else []

/-- The faults of one stored byte (R285, rows MOV M,r, STA, STAX). -/
def storeFaults (a : Nat) : List FaultRecord := [.protectedMemoryWrite a, .memoryRange a]

/-- The faults of a push (R285, row PUSH); the SP cells are excluded by the configuration. -/
def pushFaults (s : State) : List FaultRecord := storeFaults s.sp.toNat ++ storeFaults (s.sp - 1#16).toNat

/-- The faults of a pop (R285, row POP). -/
def popFaults (s : State) : List FaultRecord := [.memoryRange (s.sp + 2#16).toNat, .memoryRange (s.sp + 1#16).toNat]

end Sys2Proof.Machine

namespace Sys2Proof

open Sys2Proof.Machine

/-- The faults each instruction can raise once its operand bytes are fetched: the table of R285, less the operand
fetch, for a well-formed configuration. -/
def Instr.possibleFaults (i : Instr) (s : State) : List FaultRecord :=
  match i with
  | .nop => []
  | .hlt => []
  | .mov dst src => sourceFaults src s ++ if dst = .m then storeFaults s.hl.toNat else []
  | .mvi dst _ => if dst = .m then storeFaults s.hl.toNat else []
  | .lxiB _ => []
  | .lxiD _ => []
  | .lxiH _ => []
  | .staxB => storeFaults (pairRead .b s).toNat
  | .ldaxB => [.memoryRange (pairRead .b s).toNat]
  | .staxD => storeFaults (pairRead .d s).toNat
  | .ldaxD => [.memoryRange (pairRead .d s).toNat]
  | .rlc => []
  | .rrc => []
  | .ral => []
  | .rar => []
  | .stc => []
  | .sta addr => storeFaults addr.toNat
  | .lda addr => [.memoryRange addr.toNat]
  | .add src => sourceFaults src s
  | .adc src => sourceFaults src s
  | .sub src => sourceFaults src s
  | .sbb src => sourceFaults src s
  | .ana src => sourceFaults src s
  | .xra src => sourceFaults src s
  | .ora src => sourceFaults src s
  | .cmp src => sourceFaults src s
  | .adi _ => []
  | .aci _ => []
  | .sui _ => []
  | .sbi _ => []
  | .ani _ => []
  | .xri _ => []
  | .ori _ => []
  | .cpi _ => []
  | .jmp _ => []
  | .jnz _ => []
  | .jz _ => []
  | .jnc _ => []
  | .jc _ => []
  | .jpo _ => []
  | .jpe _ => []
  | .jp _ => []
  | .jm _ => []
  | .call _ => pushFaults s
  | .cnz _ => if condHolds .nz s.flags then pushFaults s else []
  | .cz _ => if condHolds .z s.flags then pushFaults s else []
  | .cnc _ => if condHolds .nc s.flags then pushFaults s else []
  | .cc _ => if condHolds .c s.flags then pushFaults s else []
  | .cpo _ => if condHolds .po s.flags then pushFaults s else []
  | .cpe _ => if condHolds .pe s.flags then pushFaults s else []
  | .cp _ => if condHolds .p s.flags then pushFaults s else []
  | .cm _ => if condHolds .m s.flags then pushFaults s else []
  | .ret => popFaults s
  | .rnz => if condHolds .nz s.flags then popFaults s else []
  | .rz => if condHolds .z s.flags then popFaults s else []
  | .rnc => if condHolds .nc s.flags then popFaults s else []
  | .rc => if condHolds .c s.flags then popFaults s else []
  | .rpo => if condHolds .po s.flags then popFaults s else []
  | .rpe => if condHolds .pe s.flags then popFaults s else []
  | .rp => if condHolds .p s.flags then popFaults s else []
  | .rm => if condHolds .m s.flags then popFaults s else []
  | .pushB => pushFaults s
  | .popB => popFaults s
  | .pushD => pushFaults s
  | .popD => popFaults s
  | .pushH => pushFaults s
  | .popH => popFaults s

end Sys2Proof

namespace Sys2Proof.Machine

/-- Fault entry in a state where the instruction has done nothing else yet (60_exceptions.md R288). -/
def faultEntry (s : State) (r : FaultRecord) : State := { s with running := false, fault := some r }

/-- The flags of an 8-bit result `r` with a given carry, as numbers (41_arithmetic.md R182). -/
def resultFlags (r : Nat) (carry : Bool) : Flags where
  s := decide (128 ≤ r)
  z := decide (r = 0)
  ac := decide (9 < r)
  p := evenParity (BitVec.ofNat 8 r)
  c := carry

/-- The state after an arithmetic or logic instruction of `n` bytes with the 8-bit result `r` (R173, R182). -/
def accumulatorResult (s : State) (r : Nat) (carry : Bool) (n : Nat) : State :=
  { s with regs := { s.regs with a := BitVec.ofNat 8 r }, flags := resultFlags r carry, pc := s.pc + n }

/-- The state after a store of `v` at `a` by an instruction of `n` bytes (20_memory.md R68, R74). -/
def storeResult (s : State) (a : Nat) (v : Byte) (n : Nat) : State :=
  { s with mem := s.mem.write a v, ports := s.ports ++ portEvents s.cfg a v, pc := s.pc + n }

/-- The memory with SP set to `v`: low byte in the first SP cell (10_state.md R30). -/
def memoryWithSp (s : State) (m : Memory) (v : Word) : Memory :=
  (m.write s.cfg.stackPointerLocation (lo8 v)).write (s.cfg.stackPointerLocation + 1) (hi8 v)

/-- The state after `PushStack(v)` and then `pc <- target` (44_stack_control.md R260). -/
def pushResult (s : State) (v : Word) (target : Nat) : State :=
  { s with
    mem := memoryWithSp s ((s.mem.write s.sp.toNat (hi8 v)).write (s.sp - 1#16).toNat (lo8 v)) (s.sp - 2#16)
    ports := s.ports ++ portEvents s.cfg s.sp.toNat (hi8 v) ++ portEvents s.cfg (s.sp - 1#16).toNat (lo8 v)
    pc := target }

/-- The word `PopStack()` returns (R261). -/
def popValue (s : State) : Word := wordOf (s.mem.read (s.sp + 1#16).toNat) (s.mem.read (s.sp + 2#16).toNat)

/-- The state after `PopStack()` and then `pc <- target` (R261). -/
def popResult (s : State) (target : Nat) : State :=
  { s with mem := memoryWithSp s s.mem (s.sp + 2#16), pc := target }

/-- A state with other values of what the engine never consults: `ram_start`, `ram_end` (20_memory.md R64),
`stack_length` (R86), `StepsBeforeSleep` (70_reset_and_hazards.md R352), `protected_memory_length` (10_state.md R34). -/
def withUnconsulted (ramStart ramEnd stackLength stepsBeforeSleep protectedLength : Nat) (s : State) : State :=
  { s with
    cfg := { s.cfg with
      ramStart := ramStart
      ramEnd := ramEnd
      stackLength := stackLength
      stepsBeforeSleep := stepsBeforeSleep }
    protectedMemoryLength := protectedLength }

/-- A state with another opcode table. -/
def withOpcodes (t : OpcodeTable) (s : State) : State := { s with cfg := { s.cfg with opc := t } }

/-- A result with a function applied to its next state. -/
def mapNext (f : State → State) : Result → Result
  | .next t => .next (f t)
  | .fault r => .fault r
  | .refused r => .refused r

end Sys2Proof.Machine
end

