-- ==== Sys2Proof/Certificates/Slice0/Obligations.lean ====
section
/-! DEFINITION. The statements for the provers. Each docstring names the rule of spec/ it rests on; "spec's decision
D<n>" marks a choice the spec itself made (92_eei_decisions.md), "log <n>" one of this model. The tables and expected
states they are made with are in Sys2Proof/Safety.lean. -/

open Sys2Proof Sys2Proof.Machine

/-! ### Encoding -/

/-- Under every well-formed opcode table, decoding the bytes of a well-formed instruction gives it back, whatever bytes
follow (R101, R102, R106 to R108, R111; spec's decision D1). What a well-formed table is: log 5. -/
def Obligations.DecodeInvertsEncode : Prop :=
  ∀ (t : OpcodeTable) (i : Instr) (rest : List Byte), t.wf = true → i.wf t = true →
    decode t (encode t i ++ rest) = .ok (i, rest)

/-- Under every well-formed opcode table, what the decoder reads is a well-formed instruction, and its bytes are exactly
the ones it was read from: no bit of an encoding is ignored and no two encodings share an instruction (R100, R103,
R106 to R108, R114; spec's decision D1). What a well-formed table is: log 5. -/
def Obligations.EncodeInvertsDecode : Prop :=
  ∀ (t : OpcodeTable) (bytes rest : List Byte) (i : Instr), t.wf = true → decode t bytes = .ok (i, rest) →
    i.wf t = true ∧ bytes = encode t i ++ rest

/-- Under the table of R109, the spec's instance, the opcode bytes that are no instruction are the 64 of R113 and no
others (spec's decisions D1, D2, log 5). -/
def Obligations.UnrecognizedOpcodesAreTheListed : Prop :=
  ∀ op : Byte, decodeOpcode OpcodeTable.intel8080 op = none ↔ op ∈ unrecognizedBytes

/-- Under the table of R109, words written out from the spec's encodings decode to the instructions the spec's examples
give them (R150 to R152, R174, R195, R221, R231, R241, R262; spec's decision D1, log 5). -/
def Obligations.SpecExampleWordsDecode : Prop :=
  decode .intel8080 [0x78] = .ok (.mov .a .b, []) ∧ decode .intel8080 [0x06, 0x12] = .ok (.mvi .b 0x12, []) ∧
  decode .intel8080 [0x21, 0x34, 0x12] = .ok (.lxiH 0x1234, []) ∧ decode .intel8080 [0x89] = .ok (.adc .c, []) ∧
  decode .intel8080 [0xBB] = .ok (.cmp .e, []) ∧ decode .intel8080 [0xC3, 0x00, 0x00] = .ok (.jmp 0x0000, []) ∧
  decode .intel8080 [0xCD, 0x00, 0x01] = .ok (.call 0x0100, []) ∧ decode .intel8080 [0xC9] = .ok (.ret, []) ∧
  decode .intel8080 [0xC5] = .ok (.pushB, []) ∧ decode .intel8080 [0x76] = .ok (.hlt, [])

/-! ### The step -/

/-- Where the bytes at `pc` decode, by the configured opcode table, to an instruction whose bytes are inside the array, a
step is that instruction's meaning and then the end-of-memory test (70_reset_and_hazards.md R336; spec's decisions D23, D24). -/
def Obligations.StepRunsTheDecodedInstruction : Prop :=
  ∀ (s : State) (i : Instr) (rest : List Byte), s.cfg.wf = true → s.fault = none → s.pc < s.cfg.totalSize →
    decode s.cfg.opc [s.mem.read s.pc, s.mem.read (s.pc + 1), s.mem.read (s.pc + 2)] = .ok (i, rest) →
    s.pc + i.length ≤ s.cfg.totalSize + 1 →
    step s =
      match exec i s with
      | .next t => .next (if t.cfg.totalSize ≤ t.pc then { t with running := false } else t)
      | .fault r => .fault r
      | .refused r => .refused r

/-- Every step of a well-formed state leaves a well-formed state: the configuration stays well-formed, the image still
fits, memory keeps its canonical form inside the array, and a latched fault goes with Stopped (R330, R60, R288;
derived; spec's decision D22; log 1, log 6, log 7). -/
def Obligations.EveryStepKeepsTheStateWellFormed : Prop :=
  ∀ s t : State, s.wf = true → step s = .next t → t.wf = true

/-- The model's own reset state is well-formed (the invariant of EveryStepKeepsTheStateWellFormed). The spec gives the
values of Reset for any configuration (10_state.md R44); that State.reset has the configuration CFG_T (log 2), with the
8080 opcode table (log 5), registers 0 and flags false (log 3) and nothing loaded (log 4) is the model's choice. -/
def Obligations.ResetStateIsWellFormed : Prop := State.reset.wf = true

/-- A step never stops the model where the configuration is well-formed, and is refused where it is not
(60_exceptions.md R288, 93_implementation_defined.md U6; model's choice log 7, log 10). -/
def Obligations.StepAlwaysGoesOn : Prop :=
  ∀ s : State,
    (s.cfg.wf = true → ∃ t, step s = .next t) ∧ (s.cfg.wf = false → step s = .refused .illFormedConfig)

/-- No instruction and no step writes the configuration, the retained image or its recorded length (10_state.md R34,
R35, R36; model's choice log 1). -/
def Obligations.StepsKeepConfigurationAndImage : Prop :=
  (∀ (i : Instr) (s t : State), exec i s = .next t →
    t.cfg = s.cfg ∧ t.romImage = s.romImage ∧ t.protectedMemoryLength = s.protectedMemoryLength) ∧
  (∀ s t : State, step s = .next t →
    t.cfg = s.cfg ∧ t.romImage = s.romImage ∧ t.protectedMemoryLength = s.protectedMemoryLength)

/-- No step changes a byte of the protected region, whatever instruction it runs and whether or not it faults
(20_memory.md R70, R84; spec's decision D14). -/
def Obligations.ProtectedBytesNeverChange : Prop :=
  ∀ (s t : State) (a : Nat), step s = .next t → a < s.cfg.romSize → t.mem.read a = s.mem.read a

/-- A step only appends to the port trace, and every event it appends is of a port of the row (10_state.md R39,
20_memory.md R74; spec's decision D19). -/
def Obligations.StepsOnlyAppendPortEvents : Prop :=
  ∀ s t : State, step s = .next t →
    ∃ events, t.ports = s.ports ++ events ∧ ∀ e ∈ events, e.index < s.cfg.portRowLen

/-- A step or a run command in a faulted engine does nothing (60_exceptions.md R289; spec's decision D22, log 11). -/
def Obligations.FaultedEngineDoesNothing : Prop :=
  ∀ s : State, s.cfg.wf = true → s.fault ≠ none → step s = .next s ∧ beginRun s = .next s

/-- A step that latches a fault leaves `pc` at the faulting instruction and stops the engine; one that latches none
starts nothing: `running` holds after it only if it held before and `pc` is inside memory (R288, R33, R27; spec's
decisions D22, D23, D24; fault entry is a next state: log 7). -/
def Obligations.StepStopsOnFaultAndNeverStarts : Prop :=
  ∀ s t : State, s.fault = none → step s = .next t →
    (t.fault ≠ none → t.pc = s.pc ∧ t.running = false) ∧
    (t.running = true → s.running = true ∧ t.fault = none ∧ t.pc < t.cfg.totalSize)

/-- At or past the end of memory a step only stops the engine: nothing is fetched and no fault is latched (10_state.md
R27, 60_exceptions.md R292; spec's decision D24). -/
def Obligations.EndOfMemoryStopsGracefully : Prop :=
  ∀ s : State, s.cfg.wf = true → s.fault = none → s.cfg.totalSize ≤ s.pc → step s = .next { s with running := false }

/-- An opcode byte the table does not assign is a fault at decode (60_exceptions.md R284); under the table of R109 these
are the 64 bytes of R113 (spec's decisions D1, D2, log 5). The step enters the fault before any other state changes:
the engine stops, the record is latched and `pc` stays (R288; spec's decision D22; a next state by log 7, DEDUCED). -/
def Obligations.UnrecognizedOpcodeFaults : Prop :=
  ∀ s : State, s.cfg.wf = true → s.fault = none → s.pc < s.cfg.totalSize →
    (decodeOpcode s.cfg.opc (s.mem.read s.pc) = none ∨
      (s.cfg.opc = OpcodeTable.intel8080 ∧ s.mem.read s.pc ∈ unrecognizedBytes)) →
    step s = .next (faultEntry s (.unrecognizedOpcode (s.mem.read s.pc) s.pc))

/-- The operand word of a three-byte instruction at the last fetchable address lies beyond the array: the step faults
at its second byte, taken branch or not; the address does not wrap (00_scope.md R16, 90_conflicts.md C13; spec's
decision D12). That operands are fetched before the instruction's first line is the model's reading of R16 (log 9,
DEDUCED). The fault stops the engine, latches the record and changes nothing else (R288; spec's decision D22; a next
state by log 7, DEDUCED). -/
def Obligations.OperandBeyondMemoryFaults : Prop :=
  ∀ s : State, s.cfg.wf = true → s.fault = none → s.pc + 1 = s.cfg.totalSize →
    opcodeLength s.cfg.opc (s.mem.read s.pc) = some 3 → step s = .next (faultEntry s (.memoryRange (s.pc + 2)))

/-- `pc` never exceeds 0x10001 once it does not (10_state.md R25; spec's decision D11; the tighter bound R25 adds in
passing does not hold of a jump, log 8). -/
def Obligations.ProgramCounterStaysBounded : Prop :=
  ∀ s t : State, s.pc ≤ 0x10001 → step s = .next t → t.pc ≤ 0x10001

/-- The parameters the engine never consults, and the recorded program length, do not change what a step does: a step
of the changed state is the changed state of the step (20_memory.md R64, R86, 10_state.md R34, 70_reset_and_hazards.md
R352; spec's decisions D14, D21). The opcode table changes only decoding: with any other table an instruction, once
decoded, does the same (10_state.md R36, 30_encoding.md R108; spec's decision D1). -/
def Obligations.UnconsultedParametersHaveNoEffect : Prop :=
  (∀ (ramStart ramEnd stackLength stepsBeforeSleep protectedLength : Nat) (s : State),
    s.cfg.wf = true →
    (withUnconsulted ramStart ramEnd stackLength stepsBeforeSleep protectedLength s).cfg.wf = true →
    step (withUnconsulted ramStart ramEnd stackLength stepsBeforeSleep protectedLength s) =
      mapNext (withUnconsulted ramStart ramEnd stackLength stepsBeforeSleep protectedLength) (step s)) ∧
  (∀ (t : OpcodeTable) (i : Instr) (s : State), exec i (withOpcodes t s) = mapNext (withOpcodes t) (exec i s))

/-! ### Frames -/

/-- An instruction writes only the flags R29 gives it (spec's decisions D8, D9, D10, D30). -/
def Obligations.FlagsWrittenAreTheListed : Prop :=
  ∀ (i : Instr) (s t : State), exec i s = .next t →
    match i.flagsWritten with
    | FlagsWritten.none => t.flags = s.flags
    | FlagsWritten.all => True
    | FlagsWritten.allButAc => t.flags.ac = s.flags.ac
    | FlagsWritten.carryOnly => t.flags = { s.flags with c := t.flags.c }

/-- An instruction writes only the registers its rule names (R24), fault entry included. -/
def Obligations.RegistersWrittenAreTheListed : Prop :=
  ∀ (i : Instr) (s t : State) (r : Reg8), exec i s = .next t → r ≠ .m → r ∉ i.registersWritten →
    t.operand r = s.operand r

/-- An instruction that stores nothing leaves all of memory and the port trace as they were: every byte of memory is
unchanged (R62). Which instructions these are is `Instr.storedAddresses`. -/
def Obligations.InstructionsThatStoreNothingKeepMemory : Prop :=
  ∀ (i : Instr) (s t : State), exec i s = .next t → i.storedAddresses s = [] →
    t.mem = s.mem ∧ t.ports = s.ports ∧ ∀ a, t.mem.read a = s.mem.read a

/-- `MOV M,r`, `MVI M`, `STA`, `STAX B` and `STAX D` change at most the byte they store to, at the address their
meaning computes (R150, R151, R154, R156). -/
def Obligations.SingleStoresChangeOnlyTheirByte : Prop :=
  (∀ (s t : State) (src : Reg8) (a : Nat), exec (.mov .m src) s = .next t → a ≠ s.hl.toNat →
    t.mem.read a = s.mem.read a) ∧
  (∀ (s t : State) (v : Byte) (a : Nat), exec (.mvi .m v) s = .next t → a ≠ s.hl.toNat →
    t.mem.read a = s.mem.read a) ∧
  (∀ (s t : State) (addr : Word) (a : Nat), exec (.sta addr) s = .next t → a ≠ addr.toNat →
    t.mem.read a = s.mem.read a) ∧
  (∀ (s t : State) (a : Nat), exec .staxB s = .next t → a ≠ (pairRead .b s).toNat → t.mem.read a = s.mem.read a) ∧
  (∀ (s t : State) (a : Nat), exec .staxD s = .next t → a ≠ (pairRead .d s).toNat → t.mem.read a = s.mem.read a)

/-- PUSH, CALL and the taken Ccc change at most the two stack bytes and the SP cells; POP, RET and the taken Rcc at
most the SP cells; an untaken Ccc or Rcc none. Whether or not the instruction faults (R260, R261, R288). -/
def Obligations.StackInstructionsChangeOnlyStackBytes : Prop :=
  (∀ (i : Instr) (s t : State) (a : Nat), i ∈ [.pushB, .pushD, .pushH] → exec i s = .next t →
    a ∉ pushAddresses s → t.mem.read a = s.mem.read a) ∧
  (∀ (p : Instr × Bool) (target : Word) (s t : State) (a : Nat), p ∈ calls target s.flags → exec p.1 s = .next t →
    (p.2 = true → a ∉ pushAddresses s) → t.mem.read a = s.mem.read a) ∧
  (∀ (i : Instr) (s t : State) (a : Nat), i ∈ [.popB, .popD, .popH] → exec i s = .next t →
    a ∉ popAddresses s → t.mem.read a = s.mem.read a) ∧
  (∀ (p : Instr × Bool) (s t : State) (a : Nat), p ∈ returns s.flags → exec p.1 s = .next t →
    (p.2 = true → a ∉ popAddresses s) → t.mem.read a = s.mem.read a)

/-- An instruction ends in one of two ways: the fault latch is as before and only HLT changes the run state, or it
latched a fault, stopped the engine and left `pc` in place (R288, R33; spec's decision D22; fault entry is a next
state: log 7). -/
def Obligations.InstructionsEndNormallyOrInFaultEntry : Prop :=
  ∀ (i : Instr) (s t : State), exec i s = .next t →
    (t.fault = s.fault ∧ (i ≠ .hlt → t.running = s.running)) ∨
    (∃ r, t.fault = some r ∧ t.running = false ∧ t.pc = s.pc)

/-! ### Memory and operands -/

/-- `M` is no storage: reading it is `MemRead(HL, 1)` and writing it `MemWrite(HL, 1, v)`, with `HL` computed from H
and L at the access (10_state.md R22). -/
def Obligations.RegisterMIsTheMemoryCellAtHL : Prop :=
  ∀ (s : State) (v : Byte),
    regRead .m s = memRead (256 * s.regs.h.toNat + s.regs.l.toNat) s ∧
    regWrite .m v s = memWrite (256 * s.regs.h.toNat + s.regs.l.toNat) v s

/-- `MemRead(addr, 2)` is the byte at `addr` and then the byte at `addr + 1`, the first one low; `addr + 1` does not
wrap (20_memory.md R67). -/
def Obligations.TwoByteReadIsLittleEndian : Prop :=
  ∀ (s : State) (a : Nat),
    (∀ lo hi, memRead a s = .ok lo → memRead (a + 1) s = .ok hi →
      ∃ w, memRead16 a s = .ok w ∧ w.toNat = lo.toNat + 256 * hi.toNat) ∧
    (∀ r, memRead a s = .error r → memRead16 a s = .error r) ∧
    (∀ lo r, memRead a s = .ok lo → memRead (a + 1) s = .error r → memRead16 a s = .error r)

/-- A read changes nothing; a write changes memory and, in the port row, the trace; writing the same byte again leaves
memory as it is and emits the same events again (20_memory.md R78). -/
def Obligations.RepeatedWritesAreIdempotentButEmitAgain : Prop :=
  (∀ (s : State) (a : Nat) (r : Raised), memRead a s = .error r → r.state = s) ∧
  (∀ (s t : State) (a : Nat) (v : Byte), memWrite a v s = .ok t →
    ∃ events : List PortEvent,
      (events.length = if s.cfg.inOutPortsStart ≤ a ∧ a < s.cfg.inOutPortsStart + s.cfg.portRowLen then 1 else 0) ∧
      t = { s with mem := t.mem, ports := s.ports ++ events } ∧
      ∃ u, memWrite a v t = .ok u ∧ (∀ b, u.mem.read b = t.mem.read b) ∧ u.ports = t.ports ++ events)

/-- A write that succeeds is visible to the next read of the cell, changes no other cell, and emits the one event
`(a - in_out_ports_start, v)` exactly when the address is in the port row (20_memory.md R68, R74, R81; spec's decisions
D12, D19). -/
def Obligations.WritesAreVisibleAndEmitPortEvents : Prop :=
  ∀ (s : State) (a : Nat) (v : Byte), s.cfg.romSize ≤ a → a ≤ s.cfg.totalSize →
    ∃ t, memWrite a v s = .ok t ∧ memRead a t = .ok v ∧ (∀ b, b ≠ a → t.mem.read b = s.mem.read b) ∧
      (s.cfg.inOutPortsStart ≤ a → a < s.cfg.inOutPortsStart + s.cfg.portRowLen →
        t.ports = s.ports ++ [⟨a - s.cfg.inOutPortsStart, v⟩]) ∧
      (a < s.cfg.inOutPortsStart → t.ports = s.ports) ∧
      (s.cfg.inOutPortsStart + s.cfg.portRowLen ≤ a → t.ports = s.ports)

/-- `ProtectedMemoryWrite(a)`: a write below `rom_size` raises it and the byte is not written; in a well-formed
configuration the only instructions that raise it are `MOV M,r`, `MVI M`, `STA`, `STAX`, `PUSH`, `CALL` and the taken
`Ccc`, and whatever the flags, each of them does raise it in some state (60_exceptions.md R282). It is latched, it stops
the engine and `pc` stays (R288; spec's decision D22), and a further step does nothing (R289); that this is a next state
is log 7 (DEDUCED). -/
def Obligations.ProtectedWriteIsRaisedByStoresOnly : Prop :=
  (∀ (s : State) (a : Nat) (v : Byte), a < s.cfg.romSize → memWrite a v s = .error ⟨.protectedMemoryWrite a, s⟩) ∧
  (∀ (i : Instr) (s t : State) (a : Nat), s.cfg.wf = true → s.fault = none → exec i s = .next t →
    t.fault = some (.protectedMemoryWrite a) →
    a < s.cfg.romSize ∧ t.mem.read a = s.mem.read a ∧ t.running = false ∧ t.pc = s.pc ∧ step t = .next t ∧
    ((∃ src, i = .mov .m src) ∨ (∃ v, i = .mvi .m v) ∨ (∃ addr, i = .sta addr) ∨
      i ∈ [.staxB, .staxD, .pushB, .pushD, .pushH] ∨ ∃ addr, (i, true) ∈ calls addr s.flags)) ∧
  (∀ f : Flags, ∃ s : State, s.wf = true ∧ s.fault = none ∧ s.flags = f ∧
    ∀ i : Instr, ((∃ src, i = .mov .m src) ∨ (∃ v, i = .mvi .m v) ∨ i = .sta 0 ∨
      i ∈ [.staxB, .staxD, .pushB, .pushD, .pushH] ∨ ∃ addr, (i, true) ∈ calls addr s.flags) →
      ∃ t a, exec i s = .next t ∧ t.fault = some (.protectedMemoryWrite a))

/-- Once its operand bytes are fetched, an instruction raises only the faults the table of R285 gives it, at the
addresses the table gives (60_exceptions.md R283, R285). The latch of the next state is R288's (spec's decision D22;
log 7). -/
def Obligations.OnlyTheTabledFaultsAreRaised : Prop :=
  ∀ (i : Instr) (s t : State) (r : FaultRecord), s.cfg.wf = true → s.fault = none → exec i s = .next t →
    t.fault = some r → r ∈ i.possibleFaults s

/-! ### Data transfer -/

/-- `MOV` between registers and from `M` writes the destination register and advances by 1; `MOV M,r` stores the
register at HL (R150; spec's decision D30). `MOV M,M`, an instruction only where the table puts HLT elsewhere than 0x76
(R111, log 20), stores the cell at HL onto itself. -/
def Obligations.MovCompletes : Prop :=
  (∀ (s : State) (dst src : Reg8), dst ≠ .m → s.operandReadable src →
    exec (.mov dst src) s = .next { s with regs := s.regs.put dst (s.operand src), pc := s.pc + 1 }) ∧
  (∀ (s : State) (src : Reg8), s.writable s.hl.toNat →
    exec (.mov .m src) s = .next (storeResult s s.hl.toNat (s.operand src) 1))

/-- `MVI` writes the register, or the byte at HL, and advances by 2 (R151; spec's decision D30). -/
def Obligations.MviCompletes : Prop :=
  (∀ (s : State) (dst : Reg8) (v : Byte), dst ≠ .m →
    exec (.mvi dst v) s = .next { s with regs := s.regs.put dst v, pc := s.pc + 2 }) ∧
  (∀ (s : State) (v : Byte), s.writable s.hl.toNat →
    exec (.mvi .m v) s = .next (storeResult s s.hl.toNat v 2))

/-- `LXI B`, `LXI D`, `LXI H` write both registers of the pair, the high byte to the first-named one, and advance by 3
(R152; spec's decision D26). -/
def Obligations.LxiCompletes : Prop :=
  ∀ (s : State) (lo hi : Byte),
    exec (.lxiB (wordOf lo hi)) s = .next { s with regs := { s.regs with b := hi, c := lo }, pc := s.pc + 3 } ∧
    exec (.lxiD (wordOf lo hi)) s = .next { s with regs := { s.regs with d := hi, e := lo }, pc := s.pc + 3 } ∧
    exec (.lxiH (wordOf lo hi)) s = .next { s with regs := { s.regs with h := hi, l := lo }, pc := s.pc + 3 }

/-- `LDA`, `LDAX B` and `LDAX D` load A from the address and advance, for every address in the array (R153, R155;
spec's decision D26 for the pairs, log 5). -/
def Obligations.LoadsOfAComplete : Prop :=
  (∀ (s : State) (addr : Word), s.readable addr.toNat →
    exec (.lda addr) s = .next { s with regs := { s.regs with a := s.mem.read addr.toNat }, pc := s.pc + 3 }) ∧
  (∀ (s : State) (a : Nat), a = 256 * s.regs.b.toNat + s.regs.c.toNat → s.readable a →
    exec .ldaxB s = .next { s with regs := { s.regs with a := s.mem.read a }, pc := s.pc + 1 }) ∧
  (∀ (s : State) (a : Nat), a = 256 * s.regs.d.toNat + s.regs.e.toNat → s.readable a →
    exec .ldaxD s = .next { s with regs := { s.regs with a := s.mem.read a }, pc := s.pc + 1 })

/-- `STA`, `STAX B` and `STAX D` store A at every writable address, emit the port event where there is one, and
advance (R154, R156; spec's decision D26 for the pairs, log 5). -/
def Obligations.StoresOfAComplete : Prop :=
  (∀ (s : State) (addr : Word), s.writable addr.toNat →
    exec (.sta addr) s = .next (storeResult s addr.toNat s.regs.a 3)) ∧
  (∀ (s : State) (a : Nat), a = 256 * s.regs.b.toNat + s.regs.c.toNat → s.writable a →
    exec .staxB s = .next (storeResult s a s.regs.a 1)) ∧
  (∀ (s : State) (a : Nat), a = 256 * s.regs.d.toNat + s.regs.e.toNat → s.writable a →
    exec .staxD s = .next (storeResult s a s.regs.a 1))

/-- A read beyond the array faults at its address: the `M` source of `MOV` and of the eight ALU instructions, `LDA`,
`LDAX B`, `LDAX D` (R150, R153, R155, R283, R285; spec's decision D12). The fault stops the engine, latches the record
and changes nothing else, `pc` included (R288; spec's decision D22; a next state by log 7, DEDUCED). -/
def Obligations.ReadsBeyondMemoryFault : Prop :=
  ∀ (s : State) (i : Instr) (a : Nat),
    (((∃ dst, i = .mov dst .m) ∧ a = s.hl.toNat) ∨
      (i ∈ [.add .m, .adc .m, .sub .m, .sbb .m, .ana .m, .xra .m, .ora .m, .cmp .m] ∧ a = s.hl.toNat) ∨
      (∃ addr : Word, i = .lda addr ∧ a = addr.toNat) ∨ (i = .ldaxB ∧ a = s.bc.toNat) ∨
      (i = .ldaxD ∧ a = s.de.toNat)) →
    s.cfg.totalSize < a → exec i s = .next (faultEntry s (.memoryRange a))

/-- A single store below `rom_size` faults with ProtectedMemoryWrite, one beyond the array with MemoryRangeFault,
protection first (R68, R150, R151, R154, R156, R282; spec's decision D12). The fault stops the engine and latches the
record; nothing is written and `pc` does not advance (R288; spec's decision D22; a next state by log 7, DEDUCED). -/
def Obligations.SingleStoresOutsideWritableMemoryFault : Prop :=
  ∀ (s : State) (i : Instr) (a : Nat),
    ((∃ src, (src = .m → s.readable a) ∧ i = .mov .m src ∧ a = s.hl.toNat) ∨ (∃ v, i = .mvi .m v ∧ a = s.hl.toNat) ∨
      (∃ addr : Word, i = .sta addr ∧ a = addr.toNat) ∨ (i = .staxB ∧ a = s.bc.toNat) ∨
      (i = .staxD ∧ a = s.de.toNat)) →
    (a < s.cfg.romSize → exec i s = .next (faultEntry s (.protectedMemoryWrite a))) ∧
    (s.cfg.romSize ≤ a → s.cfg.totalSize < a → exec i s = .next (faultEntry s (.memoryRange a)))

/-! ### Arithmetic and flags -/

/-- `CheckFlags(w)`: every flag from the 16-bit value and its low byte (41_arithmetic.md R170). -/
def Obligations.CheckFlagsComputesTheFiveFlags : Prop :=
  ∀ w : Word,
    ((checkFlags w).s = true ↔ 128 ≤ w.toNat % 256) ∧
    ((checkFlags w).z = true ↔ w.toNat % 256 = 0) ∧
    ((checkFlags w).ac = true ↔ 9 < w.toNat % 256) ∧
    ((checkFlags w).p = evenParity (BitVec.ofNat 8 (w.toNat % 256))) ∧
    ((checkFlags w).c = true ↔ 0xFF < w.toNat)

/-- `EvenParity(r)` is true exactly when the number of 1 bits among the eight is 0, 2, 4, 6 or 8; with the source's
two examples (41_arithmetic.md R171). -/
def Obligations.EvenParityCountsOneBits : Prop :=
  (∀ r : Byte, evenParity r = true ↔ ((List.finRange 8).filter fun i => r.getLsb i).length ∈ [0, 2, 4, 6, 8]) ∧
  evenParity 0 = true ∧ evenParity 0b00000011 = true ∧ evenParity 0b00000001 = false

/-- `ADD sss` as one step, for the opcode bytes 0x80 to 0x87 of D00: with the source readable, A becomes the sum
modulo 256, all five flags come from the 9-bit sum and `pc` advances by 1 (41_arithmetic.md R173); the end-of-memory
test follows (R27; spec's decision D24). With the `M` source beyond the array, MemoryRangeFault(HL) and nothing else:
that address check is spec's decision D12, the fault entry R288 with D22, a next state by log 7 (DEDUCED). -/
def Obligations.AddIsTheEightBitSum : Prop :=
  ∀ (s : State) (src : Reg8), s.cfg.wf = true → s.fault = none → s.pc < s.cfg.totalSize →
    (s.mem.read s.pc).toNat = 0x80 + src.num.toNat →
    (s.operandReadable src →
      step s = .next (stopAtEnd (accumulatorResult s ((s.regs.a.toNat + (s.operand src).toNat) % 256)
        (decide (0xFF < s.regs.a.toNat + (s.operand src).toNat)) 1))) ∧
    (src = .m → s.cfg.totalSize < s.hl.toNat → step s = .next (faultEntry s (.memoryRange s.hl.toNat)))

/-- `ADD`, `ADC`, `SUB`, `SBB`: A becomes the sum or the difference modulo 256, C the carry or the borrow, the other
flags those of the result; nothing else but `pc` changes (R173 to R176, R182; spec's decisions D5, D6: the 16-bit
difference wraps unsigned, so C is the borrow). -/
def Obligations.RegisterArithmeticCompletes : Prop :=
  ∀ (s : State) (src : Reg8), s.operandReadable src →
    exec (.add src) s = .next (accumulatorResult s ((s.regs.a.toNat + (s.operand src).toNat) % 256)
      (decide (256 ≤ s.regs.a.toNat + (s.operand src).toNat)) 1) ∧
    exec (.adc src) s = .next (accumulatorResult s ((s.regs.a.toNat + (s.operand src).toNat + s.flags.c.toNat) % 256)
      (decide (256 ≤ s.regs.a.toNat + (s.operand src).toNat + s.flags.c.toNat)) 1) ∧
    exec (.sub src) s = .next (accumulatorResult s ((256 + s.regs.a.toNat - (s.operand src).toNat) % 256)
      (decide (s.regs.a.toNat < (s.operand src).toNat)) 1) ∧
    exec (.sbb src) s = .next (accumulatorResult s
      ((256 + s.regs.a.toNat - ((s.operand src).toNat + s.flags.c.toNat)) % 256)
      (decide (s.regs.a.toNat < (s.operand src).toNat + s.flags.c.toNat)) 1)

/-- `ADI`, `ACI`, `SUI`, `SBI`: as the register forms, with the immediate byte and `pc` + 2 (R177 to R180, R182;
spec's decisions D5, D6). -/
def Obligations.ImmediateArithmeticCompletes : Prop :=
  ∀ (s : State) (v : Byte),
    exec (.adi v) s = .next (accumulatorResult s ((s.regs.a.toNat + v.toNat) % 256)
      (decide (256 ≤ s.regs.a.toNat + v.toNat)) 2) ∧
    exec (.aci v) s = .next (accumulatorResult s ((s.regs.a.toNat + v.toNat + s.flags.c.toNat) % 256)
      (decide (256 ≤ s.regs.a.toNat + v.toNat + s.flags.c.toNat)) 2) ∧
    exec (.sui v) s = .next (accumulatorResult s ((256 + s.regs.a.toNat - v.toNat) % 256)
      (decide (s.regs.a.toNat < v.toNat)) 2) ∧
    exec (.sbi v) s = .next (accumulatorResult s ((256 + s.regs.a.toNat - (v.toNat + s.flags.c.toNat)) % 256)
      (decide (s.regs.a.toNat < v.toNat + s.flags.c.toNat)) 2)

/-! ### Logic, compare, rotates, carry -/

/-- `ANA`, `XRA`, `ORA`, `ANI`, `XRI`, `ORI`: A becomes the bitwise result, C is cleared, the other flags are those of
the result (R190, R192 to R194, R196 to R198; spec's decision D7). -/
def Obligations.LogicCompletes : Prop :=
  (∀ (s : State) (src : Reg8), s.operandReadable src →
    exec (.ana src) s = .next (accumulatorResult s (s.regs.a &&& s.operand src).toNat false 1) ∧
    exec (.xra src) s = .next (accumulatorResult s (s.regs.a ^^^ s.operand src).toNat false 1) ∧
    exec (.ora src) s = .next (accumulatorResult s (s.regs.a ||| s.operand src).toNat false 1)) ∧
  (∀ (s : State) (v : Byte),
    exec (.ani v) s = .next (accumulatorResult s (s.regs.a &&& v).toNat false 2) ∧
    exec (.xri v) s = .next (accumulatorResult s (s.regs.a ^^^ v).toNat false 2) ∧
    exec (.ori v) s = .next (accumulatorResult s (s.regs.a ||| v).toNat false 2))

/-- `CMP` and `CPI` write Z, S, P of the 8-bit difference and C the borrow, and nothing else but `pc`: not A, not Ac
(R191, R195, R199; spec's decision D8). -/
def Obligations.CompareCompletes : Prop :=
  (∀ (s : State) (src : Reg8), s.operandReadable src →
    exec (.cmp src) s = .next { s with
      flags := { resultFlags ((256 + s.regs.a.toNat - (s.operand src).toNat) % 256)
        (decide (s.regs.a.toNat < (s.operand src).toNat)) with ac := s.flags.ac }
      pc := s.pc + 1 }) ∧
  (∀ (s : State) (v : Byte),
    exec (.cpi v) s = .next { s with
      flags := { resultFlags ((256 + s.regs.a.toNat - v.toNat) % 256)
        (decide (s.regs.a.toNat < v.toNat)) with ac := s.flags.ac }
      pc := s.pc + 2 })

/-- `RLC`, `RRC`, `RAL`, `RAR` rotate A by one bit, without and with the Carry flag, as numbers, and C is the bit that
leaves; `STC` sets C; no other flag changes (R208 to R212; spec's decisions D9, D10, log 5). -/
def Obligations.RotatesAndSetCarryComplete : Prop :=
  ∀ s : State,
    exec .rlc s = .next { s with
      regs := { s.regs with a := BitVec.ofNat 8 (2 * s.regs.a.toNat % 256 + s.regs.a.toNat / 128) }
      flags := { s.flags with c := decide (128 ≤ s.regs.a.toNat) }, pc := s.pc + 1 } ∧
    exec .rrc s = .next { s with
      regs := { s.regs with a := BitVec.ofNat 8 (s.regs.a.toNat / 2 + 128 * (s.regs.a.toNat % 2)) }
      flags := { s.flags with c := decide (s.regs.a.toNat % 2 = 1) }, pc := s.pc + 1 } ∧
    exec .ral s = .next { s with
      regs := { s.regs with a := BitVec.ofNat 8 (2 * s.regs.a.toNat % 256 + s.flags.c.toNat) }
      flags := { s.flags with c := decide (128 ≤ s.regs.a.toNat) }, pc := s.pc + 1 } ∧
    exec .rar s = .next { s with
      regs := { s.regs with a := BitVec.ofNat 8 (s.regs.a.toNat / 2 + 128 * s.flags.c.toNat) }
      flags := { s.flags with c := decide (s.regs.a.toNat % 2 = 1) }, pc := s.pc + 1 } ∧
    exec .stc s = .next { s with flags := { s.flags with c := true }, pc := s.pc + 1 }

/-! ### Control transfer -/

/-- `JMP` and the eight `Jcc` set `pc` to the target when taken and go on after 3 bytes when not; nothing else changes
(R110, R221 to R229; spec's decision D4, log 5). -/
def Obligations.JumpsComplete : Prop :=
  ∀ (s : State) (target : Word) (p : Instr × Bool), p ∈ jumps target s.flags →
    exec p.1 s = .next { s with pc := if p.2 then target.toNat else s.pc + 3 }

/-- `CALL` and a taken `Ccc` push the address after the call (modulo 65536) and set `pc` to the target, where both
stack bytes are writable (R230 to R239, R260; spec's decisions D13, D28, log 5). -/
def Obligations.TakenCallsComplete : Prop :=
  ∀ (s : State) (target : Word) (p : Instr × Bool), s.cfg.wf = true → p ∈ calls target s.flags → p.2 = true →
    s.writable s.sp.toNat → s.writable (s.sp - 1#16).toNat →
    exec p.1 s = .next (pushResult s (BitVec.ofNat 16 (s.pc + 3)) target.toNat)

/-- `RET` and a taken `Rcc` pop `pc`, where both stack bytes can be read (R240 to R249, R261; spec's decision D13,
log 5). -/
def Obligations.TakenReturnsComplete : Prop :=
  ∀ (s : State) (p : Instr × Bool), s.cfg.wf = true → p ∈ returns s.flags → p.2 = true →
    s.readable (s.sp + 2#16).toNat → s.readable (s.sp + 1#16).toNat →
    exec p.1 s = .next (popResult s (popValue s).toNat)

/-- A `Ccc` that is not taken goes on after 3 bytes, an `Rcc` that is not taken after 1 byte; neither touches the stack
or SP (R230, R232 to R240, R242 to R249). -/
def Obligations.UntakenCallsAndReturnsComplete : Prop :=
  (∀ (s : State) (target : Word) (p : Instr × Bool), p ∈ calls target s.flags → p.2 = false →
    exec p.1 s = .next { s with pc := s.pc + 3 }) ∧
  (∀ (s : State) (p : Instr × Bool), p ∈ returns s.flags → p.2 = false → exec p.1 s = .next { s with pc := s.pc + 1 })

/-! ### Stack and machine control -/

/-- `PUSH B`, `PUSH D`, `PUSH H` store the pair at `sp` and `sp - 1`, high byte first, and lower SP by 2, where both
bytes are writable; registers and flags are unchanged (R260, R262; spec's decisions D13, D26, log 5). -/
def Obligations.PushCompletes : Prop :=
  ∀ s : State, s.cfg.wf = true → s.writable s.sp.toNat → s.writable (s.sp - 1#16).toNat →
    exec .pushB s = .next (pushResult s (wordOf s.regs.c s.regs.b) (s.pc + 1)) ∧
    exec .pushD s = .next (pushResult s (wordOf s.regs.e s.regs.d) (s.pc + 1)) ∧
    exec .pushH s = .next (pushResult s (wordOf s.regs.l s.regs.h) (s.pc + 1))

/-- `POP B`, `POP D`, `POP H` load the pair from `sp + 2` (high) and `sp + 1` (low) and raise SP by 2, where both bytes
can be read; no flag changes (R261, R263; spec's decisions D13, D26, log 5). -/
def Obligations.PopCompletes : Prop :=
  ∀ (s : State) (hi lo : Byte), s.cfg.wf = true →
    s.readable (s.sp + 2#16).toNat → s.readable (s.sp + 1#16).toNat →
    hi = s.mem.read (s.sp + 2#16).toNat → lo = s.mem.read (s.sp + 1#16).toNat →
    exec .popB s = .next { popResult s (s.pc + 1) with regs := { s.regs with b := hi, c := lo } } ∧
    exec .popD s = .next { popResult s (s.pc + 1) with regs := { s.regs with d := hi, e := lo } } ∧
    exec .popH s = .next { popResult s (s.pc + 1) with regs := { s.regs with h := hi, l := lo } }

/-- A push of any pair followed by a pop of any pair: SP falls by exactly 2 and comes back, the stack bytes hold the
pair, the popped pair holds what was pushed, and for the same pair the registers are as before. This holds where no
write faults and neither stack byte is an SP cell (44_stack_control.md R264; the spec derives it from R260 and R261). -/
def Obligations.PushThenPopIsSymmetric : Prop :=
  ∀ (s : State) (p q : Instr × Pair), s.cfg.wf = true →
    p ∈ [(.pushB, .b), (.pushD, .d), (.pushH, .h)] → q ∈ [(.popB, .b), (.popD, .d), (.popH, .h)] →
    s.writable s.sp.toNat → s.writable (s.sp - 1#16).toNat →
    ¬ s.isSpCell s.sp.toNat → ¬ s.isSpCell (s.sp - 1#16).toNat →
    ∃ t u, exec p.1 s = .next t ∧ exec q.1 t = .next u ∧
      t.sp = s.sp - 2#16 ∧ t.mem.read s.sp.toNat = hi8 (pairRead p.2 s) ∧
      t.mem.read (s.sp - 1#16).toNat = lo8 (pairRead p.2 s) ∧
      u.sp = s.sp ∧ pairRead q.2 u = pairRead p.2 s ∧ (p.2 = q.2 → u.regs = s.regs)

/-- A push or a taken call whose first stack byte cannot be written changes nothing but the latch and the run state; one whose second
byte cannot be written has written the first byte, and `pc` is as before (R230, R260, R288; spec's decisions D12, D22; a
next state by log 7, DEDUCED). Its SP is as before where `sp` is no SP cell: where it is one, the first byte is stored
into SP itself (10_state.md R31). That `sp - 1` wraps at `sp = 0`, on which the fourth clause rests, is spec's decision
D13. -/
def Obligations.PushFaultsKeepTheEarlierByte : Prop :=
  ∀ (s : State) (i : Instr) (v : Word), s.cfg.wf = true →
    ((i, v) ∈ [(.pushB, s.bc), (.pushD, s.de), (.pushH, s.hl)] ∨
      (∃ target, (i, true) ∈ calls target s.flags ∧ v = BitVec.ofNat 16 (s.pc + 3))) →
    (s.sp.toNat < s.cfg.romSize → exec i s = .next (faultEntry s (.protectedMemoryWrite s.sp.toNat))) ∧
    (s.cfg.totalSize < s.sp.toNat → exec i s = .next (faultEntry s (.memoryRange s.sp.toNat))) ∧
    (s.writable s.sp.toNat → (s.sp - 1#16).toNat < s.cfg.romSize →
      exec i s = .next (faultEntry (storeResult s s.sp.toNat (hi8 v) 0)
        (.protectedMemoryWrite (s.sp - 1#16).toNat))) ∧
    (s.writable s.sp.toNat → s.cfg.totalSize < (s.sp - 1#16).toNat →
      exec i s = .next (faultEntry (storeResult s s.sp.toNat (hi8 v) 0) (.memoryRange (s.sp - 1#16).toNat)))

/-- A pop or a taken return whose stack bytes lie beyond the array faults at the high byte's address first, then at
the low byte's (R240, R261, R263, R283; spec's decisions D12, D13). The fault stops the engine, latches the record and
changes nothing else (R288; spec's decision D22; a next state by log 7, DEDUCED). -/
def Obligations.PopsBeyondMemoryFault : Prop :=
  ∀ (s : State) (i : Instr), s.cfg.wf = true →
    (i ∈ [.popB, .popD, .popH] ∨ (i, true) ∈ returns s.flags) →
    (s.cfg.totalSize < (s.sp + 2#16).toNat → exec i s = .next (faultEntry s (.memoryRange (s.sp + 2#16).toNat))) ∧
    (s.readable (s.sp + 2#16).toNat → s.cfg.totalSize < (s.sp + 1#16).toNat →
      exec i s = .next (faultEntry s (.memoryRange (s.sp + 1#16).toNat)))

/-- `NOP` only advances `pc`; `HLT` stops the engine and advances `pc` (R266, R267; spec's decision D25, log 5). -/
def Obligations.NopAndHltComplete : Prop :=
  ∀ s : State, exec .nop s = .next { s with pc := s.pc + 1 } ∧
    exec .hlt s = .next { s with running := false, pc := s.pc + 1 }

/-! ### The host's commands -/

/-- Reset: `pc` is `offset`, the engine is stopped with no fault latched, SP holds `stack_address`, every other byte is
the image's where the image lies and unchanged elsewhere, and the configuration, the image, its recorded length and
the port trace are unchanged (10_state.md R44, 70_reset_and_hazards.md R326, R327; spec's decisions D15, D17, D22,
D23). Registers and flags may take any value (spec's decision D16, log 16). -/
def Obligations.ResetReloadsImageAndStackPointer : Prop :=
  ∀ (regs : Regs) (flags : Flags) (s : State), s.cfg.wf = true →
    ∃ t, perform (.reset regs flags) s = .next t ∧
      t = { s with regs := regs, flags := flags, pc := s.cfg.offset, mem := t.mem, running := false, fault := none } ∧
      t.sp.toNat = s.cfg.stackAddress ∧
      ∀ a, ¬ s.isSpCell a →
        (∀ v, s.romImage[a]? = some v → t.mem.read a = v) ∧ (s.romImage.length ≤ a → t.mem.read a = s.mem.read a)

/-- The state after reset that the interface names is Construct and then Reset of the model's configuration with all
registers 0 and all flags false (70_reset_and_hazards.md R320, R326; model's choices log 2, log 3, log 4). -/
def Obligations.ResetStateIsConstructThenReset : Prop :=
  ∃ s, construct Config.cfgT Regs.zero Flags.clear = .next s ∧
    perform (.reset Regs.zero Flags.clear) s = .next State.reset

/-- Every command of the host, a step among them, keeps a well-formed state well-formed, and Construct gives one
(70_reset_and_hazards.md R320 to R340; derived). It rests on the model's readings: Run does nothing while a fault is
latched (60_exceptions.md R289, log 11; R338 alone would set `running` beside the latch), SetCode refuses an image that
does not fit (log 15), a raw load keeps the range check (log 14), a configuration that breaks R330 is refused (log 10),
and log 1, log 6, log 7. -/
def Obligations.EveryCommandKeepsTheStateWellFormed : Prop :=
  (∀ (c : Command) (s t : State), s.wf = true → perform c s = .next t → t.wf = true) ∧
  (∀ (cfg : Config) (regs : Regs) (flags : Flags) (t : State), construct cfg regs flags = .next t → t.wf = true)

/-- How many turns the host's run loop makes between two yields changes nothing: `m + n` turns are `m` turns and then
`n` turns (70_reset_and_hazards.md R338, R352; log 12). -/
def Obligations.YieldsOfTheRunLoopHaveNoEffect : Prop :=
  ∀ (m n : Nat) (s : State),
    runLoop (m + n) s =
      match runLoop m s with
      | .next t => runLoop n t
      | .fault r => .fault r
      | .refused r => .refused r

/-! ### The opcode table -/

/-- The table of R109, the spec's 8080 instance (spec's decision D1, log 5), is well-formed, and its groups have the bit
patterns R109 gives beside them: MVI `00 ddd 110`, Jcc, Ccc and Rcc `11 ccc` with `010`, `100` and `000`, the pairs at
bits 5:4 of LXI, STAX, LDAX, PUSH and POP (R102), ANA to CMP `1010 0` to `1011 1`. -/
def Obligations.OpcodeTableInstanceHasTheBitPatterns : Prop :=
  OpcodeTable.intel8080.wf = true ∧
  (∀ r : Reg8, OpcodeTable.intel8080.mvi.byteOf r = patternByte 0b00#2 r.num 0b110#3) ∧
  (∀ cond : Cond, OpcodeTable.intel8080.jcc.byteOf cond = patternByte 0b11#2 cond.num 0b010#3 ∧
    OpcodeTable.intel8080.ccc.byteOf cond = patternByte 0b11#2 cond.num 0b100#3 ∧
    OpcodeTable.intel8080.rcc.byteOf cond = patternByte 0b11#2 cond.num 0b000#3) ∧
  (∀ p : Pair, OpcodeTable.intel8080.lxi.byteOf p = 0b00#2 ++ p.num ++ 0b0001#4 ∧
    OpcodeTable.intel8080.push.byteOf p = 0b11#2 ++ p.num ++ 0b0101#4 ∧
    OpcodeTable.intel8080.pop.byteOf p = 0b11#2 ++ p.num ++ 0b0001#4) ∧
  OpcodeTable.intel8080.stax = ⟨0b00#2 ++ Pair.num .b ++ 0b0010#4, 0b00#2 ++ Pair.num .d ++ 0b0010#4⟩ ∧
  OpcodeTable.intel8080.ldax = ⟨0b00#2 ++ Pair.num .b ++ 0b1010#4, 0b00#2 ++ Pair.num .d ++ 0b1010#4⟩ ∧
  OpcodeTable.intel8080.logicBlocks = [0b10100#5, 0b10101#5, 0b10110#5, 0b10111#5]
end

