-- ==== Sys2Proof/Laws/Bytes.lean ====
section
/-! SUPPORT. The halves of a word and the word of two bytes (Machine/Bytes.lean), as numbers and as inverses. -/

namespace Sys2Proof

theorem lo8_toNat (w : Word) : (lo8 w).toNat = w.toNat % 256 := by
  simp [lo8]

theorem hi8_toNat (w : Word) : (hi8 w).toNat = w.toNat / 256 := by
  have := w.isLt
  simp [hi8, Nat.shiftRight_eq_div_pow]
  omega

theorem wordOf_toNat (lo hi : Byte) : (wordOf lo hi).toNat = lo.toNat + 256 * hi.toNat := by
  have := lo.isLt
  have hlt : lo.toNat < 2 ^ 8 := by omega
  rw [wordOf, BitVec.toNat_append, Nat.shiftLeft_eq, Nat.mul_comm, ← Nat.two_pow_add_eq_or_of_lt hlt]
  omega

@[simp] theorem wordOf_lo8_hi8 (w : Word) : wordOf (lo8 w) (hi8 w) = w := by
  apply BitVec.eq_of_toNat_eq
  rw [wordOf_toNat, lo8_toNat, hi8_toNat]
  omega

@[simp] theorem lo8_wordOf (lo hi : Byte) : lo8 (wordOf lo hi) = lo := by
  have := lo.isLt
  apply BitVec.eq_of_toNat_eq
  rw [lo8_toNat, wordOf_toNat]
  omega

@[simp] theorem hi8_wordOf (lo hi : Byte) : hi8 (wordOf lo hi) = hi := by
  have := lo.isLt
  apply BitVec.eq_of_toNat_eq
  rw [hi8_toNat, wordOf_toNat]
  omega

end Sys2Proof
end

