-- ==== Sys2Proof/Laws/Decode.lean ====
section
/-! SUPPORT. Everything the decoder can answer about one opcode byte, said once for any well-formed opcode table: the
row of a fixed byte, and the four variable-field decoders on every other byte (30_encoding.md R106). -/

namespace Sys2Proof

/-! ### A table with distinct bytes -/

theorem distinctBytes_nodup {l : List Byte} {seen : Nat} (h : distinctBytes l seen = true) :
    l.Nodup ∧ ∀ b ∈ l, seen.testBit b.toNat = false := by
  induction l generalizing seen with
  | nil => simp
  | cons b rest ih =>
    simp only [distinctBytes, Bool.and_eq_true, Bool.not_eq_true'] at h
    obtain ⟨hrest, hseen⟩ := ih h.2
    have key : ∀ c ∈ rest, seen.testBit c.toNat = false ∧ c ≠ b := by
      intro c hc
      have := hseen c hc
      rw [Nat.testBit_or, Bool.or_eq_false_iff] at this
      refine ⟨this.1, fun e => ?_⟩
      subst e
      simp [Nat.testBit_shiftLeft] at this
    refine ⟨List.nodup_cons.2 ⟨fun hb => (key b hb).2 rfl, hrest⟩, ?_⟩
    rintro c hc
    rcases List.mem_cons.1 hc with rfl | hc
    · exact h.1
    · exact (key c hc).1

/-- The clauses of a well-formed table. -/
theorem OpcodeTable.wf_iff (t : OpcodeTable) :
    t.wf = true ↔ distinctBytes t.fixedBytes 0 = true ∧ (∀ b ∈ t.fixedBytes, t.mayBeFixed b = true) ∧
      (∀ k ∈ t.logicBlocks, k.toNat < 8 ∨ 20 ≤ k.toNat) ∧ t.logicBlocks.Nodup := by
  simp [OpcodeTable.wf, and_assoc]

/-- Where a fixed byte lies. -/
theorem OpcodeTable.fixed_place {t : OpcodeTable} (h : t.wf = true) {b : Byte} (hb : b ∈ t.fixedBytes) :
    (b.toNat < 0x40 ∨ 0xA0 ≤ b.toNat ∨ (b = t.hlt ∧ b.toNat < 0x80)) ∧ b.extractLsb' 3 5 ∉ t.logicBlocks :=
  of_decide_eq_true ((t.wf_iff.1 h).2.1 b hb)

theorem OpcodeTable.rows_keys (t : OpcodeTable) : t.rows.map Prod.fst = t.fixedBytes := rfl

theorem OpcodeTable.fixed_nodup {t : OpcodeTable} (h : t.wf = true) : t.fixedBytes.Nodup :=
  (distinctBytes_nodup (t.wf_iff.1 h).1).1

/-! ### The two stages -/

theorem lookupOpcode_of_mem {rows : List (Byte × Form)} (hn : (rows.map Prod.fst).Nodup) {op : Byte} {form : Form}
    (h : (op, form) ∈ rows) : lookupOpcode op rows = some form := by
  induction rows with
  | nil => cases h
  | cons row rest ih =>
    obtain ⟨key, f⟩ := row
    obtain ⟨hk, hn⟩ := List.nodup_cons.1 hn
    rcases List.mem_cons.1 h with e | h
    · cases e; simp [lookupOpcode]
    · have : op ≠ key := fun e => hk (e ▸ List.mem_map.2 ⟨_, h, rfl⟩)
      simp [lookupOpcode, this, ih hn h]

theorem mem_of_lookupOpcode {rows : List (Byte × Form)} {op : Byte} {form : Form}
    (h : lookupOpcode op rows = some form) : (op, form) ∈ rows := by
  induction rows with
  | nil => cases h
  | cons row rest ih =>
    obtain ⟨key, f⟩ := row
    rw [lookupOpcode] at h
    split at h
    · next e => cases h; exact e ▸ List.mem_cons_self
    · exact List.mem_cons_of_mem _ (ih h)

theorem lookupOpcode_eq_none {rows : List (Byte × Form)} {op : Byte} :
    lookupOpcode op rows = none ↔ op ∉ rows.map Prod.fst := by
  induction rows with
  | nil => simp [lookupOpcode]
  | cons row rest ih => by_cases h : op = row.1 <;> simp_all [lookupOpcode]

/-- A fixed byte decodes to its row. -/
theorem decodeOpcode_row {t : OpcodeTable} (h : t.wf = true) {op : Byte} {form : Form} (hr : (op, form) ∈ t.rows) :
    decodeOpcode t op = some form := by
  rw [decodeOpcode, lookupOpcode_of_mem (t.rows_keys ▸ t.fixed_nodup h) hr]

/-- A byte that is not fixed decodes as a block byte or not at all. -/
theorem decodeOpcode_block {t : OpcodeTable} {op : Byte} (h : op ∉ t.fixedBytes) :
    decodeOpcode t op = (decodeVariable t op).map .op := by
  rw [decodeOpcode, lookupOpcode_eq_none.2 (t.rows_keys ▸ h)]
  cases decodeVariable t op <;> rfl

/-- Everything decoding one byte can answer. -/
theorem decodeOpcode_cases {t : OpcodeTable} {op : Byte} {form : Form} (h : decodeOpcode t op = some form) :
    (op, form) ∈ t.rows ∨ (op ∉ t.fixedBytes ∧ ∃ i, decodeVariable t op = some i ∧ form = .op i) := by
  cases hl : lookupOpcode op t.rows with
  | some f =>
    rw [decodeOpcode, hl] at h
    cases h
    exact .inl (mem_of_lookupOpcode hl)
  | none =>
    have hf : op ∉ t.fixedBytes := t.rows_keys ▸ lookupOpcode_eq_none.1 hl
    rw [decodeOpcode_block hf, Option.map_eq_some_iff] at h
    obtain ⟨i, hi, rfl⟩ := h
    exact .inr ⟨hf, i, hi, rfl⟩

/-! ### The block bytes -/

theorem mov_variable (t : OpcodeTable) (dst src : Reg8) : decodeVariable t (movByte dst src) = some (.mov dst src) := by
  cases dst <;> cases src <;> rfl

theorem arithmetic_variable (t : OpcodeTable) (src : Reg8) :
    decodeVariable t (patternByte 0b10#2 0b000#3 src.num) = some (.add src) ∧
    decodeVariable t (patternByte 0b10#2 0b001#3 src.num) = some (.adc src) ∧
    decodeVariable t (patternByte 0b10#2 0b010#3 src.num) = some (.sub src) ∧
    decodeVariable t (patternByte 0b10#2 0b011#3 src.num) = some (.sbb src) := by
  cases src <;> exact ⟨rfl, rfl, rfl, rfl⟩

/-- A byte of a logic block is in none of the blocks tried before. -/
theorem logic_block_apart : ∀ k : BitVec 5, k.toNat < 8 ∨ 20 ≤ k.toNat → ∀ n : BitVec 3,
    decodeMov (k ++ n) = none ∧ decodeAdd (k ++ n) = none ∧ decodeSub (k ++ n) = none := by
  decide

theorem block_append (k : BitVec 5) (n : BitVec 3) :
    BitVec.extractLsb' 3 5 (k ++ n) = k ∧ BitVec.extractLsb' 0 3 (k ++ n) = n := by
  revert k n; decide

theorem Reg8.ofNum_num (r : Reg8) : Reg8.ofNum r.num = r := by cases r <;> rfl

/-- The bytes of the four logic blocks, wherever the table puts them. -/
theorem logic_variable {t : OpcodeTable} (h : t.wf = true) (src : Reg8) :
    decodeVariable t (t.ana ++ src.num) = some (.ana src) ∧ decodeVariable t (t.xra ++ src.num) = some (.xra src) ∧
    decodeVariable t (t.ora ++ src.num) = some (.ora src) ∧ decodeVariable t (t.cmp ++ src.num) = some (.cmp src) := by
  obtain ⟨_, _, hplace, hn⟩ := t.wf_iff.1 h
  have key : ∀ k ∈ t.logicBlocks, decodeVariable t (k ++ src.num) =
      if k = t.cmp then some (.cmp src) else if k = t.ora then some (.ora src)
      else if k = t.xra then some (.xra src) else if k = t.ana then some (.ana src) else none := by
    intro k hk
    obtain ⟨h1, h2, h3⟩ := logic_block_apart k (hplace k hk) src.num
    simp only [decodeVariable, h1, h2, h3, decodeLogic, fieldSrc, (block_append k src.num).1,
      (block_append k src.num).2, Reg8.ofNum_num]
  simp only [OpcodeTable.logicBlocks, List.nodup_cons, List.mem_cons, List.not_mem_nil, or_false, not_or] at hn
  obtain ⟨⟨h1, h2, h3⟩, ⟨h4, h5⟩, h6, _⟩ := hn
  refine ⟨?_, ?_, ?_, ?_⟩ <;> rw [key _ (by simp [OpcodeTable.logicBlocks])] <;> simp [*]

/-- A byte of `add` or `sub` is not fixed. -/
theorem arithmetic_not_fixed {t : OpcodeTable} (h : t.wf = true) {b : Byte} (lo : 0x80 ≤ b.toNat) (hi : b.toNat < 0xA0) :
    b ∉ t.fixedBytes := by
  intro hb
  have := (OpcodeTable.fixed_place h hb).1
  omega

/-- A byte of `mov` that is not HLT's is not fixed. -/
theorem mov_not_fixed {t : OpcodeTable} (h : t.wf = true) {dst src : Reg8} (hne : movByte dst src ≠ t.hlt) :
    movByte dst src ∉ t.fixedBytes := by
  intro hb
  have place := (OpcodeTable.fixed_place h hb).1
  have : 0x40 ≤ (movByte dst src).toNat ∧ (movByte dst src).toNat < 0x80 := by
    cases dst <;> cases src <;> exact ⟨Nat.le_of_ble_eq_true rfl, Nat.le_of_ble_eq_true rfl⟩
  simp only [hne, false_and, or_false] at place
  omega

/-- A byte of a logic block is not fixed. -/
theorem logic_not_fixed {t : OpcodeTable} (h : t.wf = true) {k : BitVec 5} (hk : k ∈ t.logicBlocks) (n : BitVec 3) :
    k ++ n ∉ t.fixedBytes := by
  intro hb
  have := (OpcodeTable.fixed_place h hb).2
  rw [(block_append k n).1] at this
  exact this hk

/-! ### Byte sequences -/

/-- The opcode byte, then the operand bytes its form asks for (R103). -/
theorem decode_cons (t : OpcodeTable) (op : Byte) (rest : List Byte) :
    decode t (op :: rest) = match decodeOpcode t op with
      | none => .error (.unrecognizedOpcode op)
      | some (.op i) => .ok (i, rest)
      | some (.d8 f) => match rest with
        | imm :: tail => .ok (f imm, tail)
        | [] => .error (.missingOperand op)
      | some (.d16 f) => match rest with
        | lo :: hi :: tail => .ok (f (wordOf lo hi), tail)
        | _ => .error (.missingOperand op) := rfl

/-! ### Lengths -/

theorem opcodeLength_row {t : OpcodeTable} (h : t.wf = true) {op : Byte} {form : Form} (hr : (op, form) ∈ t.rows) :
    opcodeLength t op = some form.length := by
  rw [opcodeLength, decodeOpcode_row h hr]

/-- Every block instruction is one byte long (R103). -/
theorem opcodeLength_block {t : OpcodeTable} {op : Byte} {i : Instr} (hf : op ∉ t.fixedBytes)
    (hi : decodeVariable t op = some i) : opcodeLength t op = some 1 := by
  rw [opcodeLength, decodeOpcode_block hf, hi]; rfl

end Sys2Proof
end

