-- ==== Sys2Proof/Laws/Memory.lean ====
section
/-! SUPPORT. The byte array: what a write leaves (read after write, every other address), and that every memory
operation keeps the canonical form and stays inside the array. -/

namespace Sys2Proof.Machine

theorem Memory.read_drop (m : Memory) (a b : Nat) :
    (m.drop a).read b = if b = a then unlistedByte else m.read b := by
  induction m with
  | nil => simp [Memory.drop, Memory.read]
  | cons cell rest ih =>
    obtain ⟨k, w⟩ := cell
    by_cases hk : a = k
    · subst hk
      simp only [Memory.drop, if_true, ih, Memory.read]
      split <;> rfl
    · simp only [Memory.drop, if_neg hk, Memory.read, ih]
      by_cases hb : b = k
      · subst hb
        simp [Ne.symm hk]
      · simp [hb]

theorem Memory.read_insert (m : Memory) (a : Nat) (v : Byte) (b : Nat) (h : m.read a = unlistedByte ∨ a ≠ b)
    (hm : ∀ cell ∈ m, cell.1 ≠ a) :
    (m.insert a v).read b = if b = a then v else m.read b := by
  induction m with
  | nil => simp [Memory.insert, Memory.read]
  | cons cell rest ih =>
    obtain ⟨k, w⟩ := cell
    have hk : k ≠ a := hm (k, w) (by simp)
    have hrest : ∀ cell ∈ rest, cell.1 ≠ a := fun c hc => hm c (by simp [hc])
    have ih' := ih (by
      rcases h with h | h
      · left; simpa [Memory.read, Ne.symm hk] using h
      · exact .inr h) hrest
    by_cases hlt : a < k
    · simp [Memory.insert, hlt, Memory.read]
    · simp only [Memory.insert, if_neg hlt, Memory.read, ih']
      by_cases hb : b = k
      · subst hb; simp [hk]
      · simp [hb]

theorem Memory.drop_ne (m : Memory) (a : Nat) : ∀ cell ∈ m.drop a, cell.1 ≠ a := by
  induction m with
  | nil => simp [Memory.drop]
  | cons cell rest ih =>
    obtain ⟨k, w⟩ := cell
    by_cases hk : a = k
    · rw [Memory.drop, if_pos hk]; exact ih
    · simp only [Memory.drop, if_neg hk, List.mem_cons, forall_eq_or_imp]
      exact ⟨Ne.symm hk, ih⟩

/-- Reading after a write: the value written at its address, everything else as before. It needs no canonical form. -/
@[simp] theorem Memory.read_write (m : Memory) (a : Nat) (v : Byte) (b : Nat) :
    (m.write a v).read b = if b = a then v else m.read b := by
  unfold Memory.write
  split
  · next h => rw [Memory.read_drop, h]
  · rw [Memory.read_insert _ _ _ _ (.inl (by simp [Memory.read_drop])) (Memory.drop_ne m a), Memory.read_drop]
    split <;> simp_all

theorem Memory.read_write_same (m : Memory) (a : Nat) (v : Byte) : (m.write a v).read a = v := by simp

theorem Memory.read_write_ne (m : Memory) {a b : Nat} (v : Byte) (h : b ≠ a) : (m.write a v).read b = m.read b := by
  simp [h]

theorem Memory.above_iff (a : Nat) (m : Memory) : Memory.above a m = true ↔ ∀ cell ∈ m, a < cell.1 := by
  simp [Memory.above]

theorem Memory.mem_drop {m : Memory} {a : Nat} {cell : Host.Cell} (h : cell ∈ m.drop a) : cell ∈ m := by
  induction m with
  | nil => simp [Memory.drop] at h
  | cons c rest ih =>
    obtain ⟨k, w⟩ := c
    by_cases hk : a = k
    · simp only [Memory.drop, if_pos hk] at h
      exact List.mem_cons_of_mem _ (ih h)
    · simp only [Memory.drop, if_neg hk, List.mem_cons] at h
      rcases h with h | h
      · simp [h]
      · exact List.mem_cons_of_mem _ (ih h)

theorem Memory.mem_insert {m : Memory} {a : Nat} {v : Byte} {cell : Host.Cell} (h : cell ∈ m.insert a v) :
    cell = (a, v) ∨ cell ∈ m := by
  induction m with
  | nil => simpa [Memory.insert] using h
  | cons c rest ih =>
    obtain ⟨k, w⟩ := c
    by_cases hk : a < k
    · simpa [Memory.insert, hk] using h
    · simp only [Memory.insert, if_neg hk, List.mem_cons] at h
      rcases h with h | h
      · simp [h]
      · rcases ih h with h | h
        · exact .inl h
        · exact .inr (by simp [h])

theorem Memory.wf_cons (a : Nat) (v : Byte) (m : Memory) :
    Memory.wf ((a, v) :: m) = true ↔ v ≠ unlistedByte ∧ (∀ cell ∈ m, a < cell.1) ∧ m.wf = true := by
  simp [Memory.wf, Memory.above_iff, and_assoc]

theorem Memory.wf_drop {m : Memory} (h : m.wf = true) (a : Nat) : (m.drop a).wf = true := by
  induction m with
  | nil => rfl
  | cons cell rest ih =>
    obtain ⟨k, w⟩ := cell
    obtain ⟨hw, hk, hr⟩ := (Memory.wf_cons k w rest).1 h
    by_cases hak : a = k
    · rw [Memory.drop, if_pos hak]; exact ih hr
    · simp only [Memory.drop, if_neg hak]
      exact (Memory.wf_cons _ _ _).2 ⟨hw, fun c hc => hk c (Memory.mem_drop hc), ih hr⟩

theorem Memory.wf_insert {m : Memory} (h : m.wf = true) {a : Nat} {v : Byte} (hv : v ≠ unlistedByte)
    (hm : ∀ cell ∈ m, cell.1 ≠ a) : (m.insert a v).wf = true := by
  induction m with
  | nil => exact (Memory.wf_cons _ _ _).2 ⟨hv, by simp, rfl⟩
  | cons cell rest ih =>
    obtain ⟨k, w⟩ := cell
    obtain ⟨hw, hk, hr⟩ := (Memory.wf_cons k w rest).1 h
    have hka : k ≠ a := hm (k, w) (by simp)
    by_cases hlt : a < k
    · simp only [Memory.insert, if_pos hlt]
      refine (Memory.wf_cons _ _ _).2 ⟨hv, ?_, h⟩
      intro c hc
      rcases List.mem_cons.1 hc with rfl | hc
      · exact hlt
      · exact Nat.lt_trans hlt (hk c hc)
    · simp only [Memory.insert, if_neg hlt]
      refine (Memory.wf_cons _ _ _).2 ⟨hw, ?_, ih hr fun c hc => hm c (by simp [hc])⟩
      intro c hc
      rcases Memory.mem_insert hc with rfl | hc
      · show k < a; omega
      · exact hk c hc

/-- A write keeps the canonical form. -/
theorem Memory.wf_write {m : Memory} (h : m.wf = true) (a : Nat) (v : Byte) : (m.write a v).wf = true := by
  unfold Memory.write
  split
  · exact Memory.wf_drop h a
  · next hv => exact Memory.wf_insert (Memory.wf_drop h a) hv (Memory.drop_ne m a)

theorem Memory.within_iff (m : Memory) (top : Nat) : m.within top = true ↔ ∀ cell ∈ m, cell.1 ≤ top := by
  simp [Memory.within]

/-- A write inside the array keeps the array's bounds. -/
theorem Memory.within_write {m : Memory} {top : Nat} (h : m.within top = true) {a : Nat} (ha : a ≤ top) (v : Byte) :
    (m.write a v).within top = true := by
  rw [Memory.within_iff] at h ⊢
  intro cell hc
  unfold Memory.write at hc
  split at hc
  · exact h cell (Memory.mem_drop hc)
  · rcases Memory.mem_insert hc with rfl | hc
    · exact ha
    · exact h cell (Memory.mem_drop hc)

@[simp] theorem Memory.read_cleared (a : Nat) : Memory.cleared.read a = unlistedByte := rfl

theorem Memory.wf_cleared : Memory.cleared.wf = true := rfl

theorem Memory.within_cleared (top : Nat) : Memory.cleared.within top = true := rfl

/-- Copying an image keeps the canonical form. -/
theorem Memory.wf_load {m : Memory} (h : m.wf = true) (base : Nat) (image : List Byte) :
    (m.load base image).wf = true := by
  induction image generalizing m base with
  | nil => exact h
  | cons v rest ih => exact ih (Memory.wf_write h base v) (base + 1)

/-- Copying an image that fits keeps the array's bounds. -/
theorem Memory.within_load {m : Memory} {top : Nat} (h : m.within top = true) (base : Nat) (image : List Byte)
    (hfit : base + image.length ≤ top + 1) : (m.load base image).within top = true := by
  induction image generalizing m base with
  | nil => exact h
  | cons v rest ih =>
    simp only [List.length_cons] at hfit
    exact ih (Memory.within_write h (by omega) v) (base + 1) (by omega)

/-- Reading after an image was copied: the image's byte where it lies, everything else as before. -/
theorem Memory.read_load (m : Memory) (base : Nat) (image : List Byte) (b : Nat) :
    (m.load base image).read b =
      if base ≤ b then (match image[b - base]? with | some v => v | none => m.read b) else m.read b := by
  induction image generalizing m base with
  | nil => simp [Memory.load]
  | cons v rest ih =>
    rw [Memory.load, ih]
    rcases Nat.lt_trichotomy b base with h | h | h
    · simp [show ¬ base + 1 ≤ b by omega, show ¬ base ≤ b by omega, show b ≠ base by omega]
    · subst h; simp
    · have e : b - base = (b - (base + 1)) + 1 := by omega
      simp [show base + 1 ≤ b by omega, show base ≤ b by omega, show b ≠ base by omega, e]

end Sys2Proof.Machine
end

