-- ==== Sys2Proof/Laws/State.lean ====
section
/-! SUPPORT. Each field after each update of Machine/State.lean, and after the composed updates of Machine/Ops.lean
and Machine/Flags.lean, so that no proof unfolds one. -/

namespace Sys2Proof.Machine

variable (s : State)

@[simp] theorem State.setRegs_cfg (r : Regs) : (s.setRegs r).cfg = s.cfg := rfl
@[simp] theorem State.setRegs_regs (r : Regs) : (s.setRegs r).regs = r := rfl
@[simp] theorem State.setRegs_flags (r : Regs) : (s.setRegs r).flags = s.flags := rfl
@[simp] theorem State.setRegs_pc (r : Regs) : (s.setRegs r).pc = s.pc := rfl
@[simp] theorem State.setRegs_mem (r : Regs) : (s.setRegs r).mem = s.mem := rfl
@[simp] theorem State.setRegs_running (r : Regs) : (s.setRegs r).running = s.running := rfl
@[simp] theorem State.setRegs_fault (r : Regs) : (s.setRegs r).fault = s.fault := rfl
@[simp] theorem State.setRegs_protectedMemoryLength (r : Regs) : (s.setRegs r).protectedMemoryLength = s.protectedMemoryLength := rfl
@[simp] theorem State.setRegs_romImage (r : Regs) : (s.setRegs r).romImage = s.romImage := rfl
@[simp] theorem State.setRegs_ports (r : Regs) : (s.setRegs r).ports = s.ports := rfl

@[simp] theorem State.setA_cfg (v : Byte) : (s.setA v).cfg = s.cfg := rfl
@[simp] theorem State.setA_regs (v : Byte) : (s.setA v).regs = { s.regs with a := v } := rfl
@[simp] theorem State.setA_flags (v : Byte) : (s.setA v).flags = s.flags := rfl
@[simp] theorem State.setA_pc (v : Byte) : (s.setA v).pc = s.pc := rfl
@[simp] theorem State.setA_mem (v : Byte) : (s.setA v).mem = s.mem := rfl
@[simp] theorem State.setA_running (v : Byte) : (s.setA v).running = s.running := rfl
@[simp] theorem State.setA_fault (v : Byte) : (s.setA v).fault = s.fault := rfl
@[simp] theorem State.setA_protectedMemoryLength (v : Byte) : (s.setA v).protectedMemoryLength = s.protectedMemoryLength := rfl
@[simp] theorem State.setA_romImage (v : Byte) : (s.setA v).romImage = s.romImage := rfl
@[simp] theorem State.setA_ports (v : Byte) : (s.setA v).ports = s.ports := rfl

@[simp] theorem State.setFlags_cfg (f : Flags) : (s.setFlags f).cfg = s.cfg := rfl
@[simp] theorem State.setFlags_regs (f : Flags) : (s.setFlags f).regs = s.regs := rfl
@[simp] theorem State.setFlags_flags (f : Flags) : (s.setFlags f).flags = f := rfl
@[simp] theorem State.setFlags_pc (f : Flags) : (s.setFlags f).pc = s.pc := rfl
@[simp] theorem State.setFlags_mem (f : Flags) : (s.setFlags f).mem = s.mem := rfl
@[simp] theorem State.setFlags_running (f : Flags) : (s.setFlags f).running = s.running := rfl
@[simp] theorem State.setFlags_fault (f : Flags) : (s.setFlags f).fault = s.fault := rfl
@[simp] theorem State.setFlags_protectedMemoryLength (f : Flags) : (s.setFlags f).protectedMemoryLength = s.protectedMemoryLength := rfl
@[simp] theorem State.setFlags_romImage (f : Flags) : (s.setFlags f).romImage = s.romImage := rfl
@[simp] theorem State.setFlags_ports (f : Flags) : (s.setFlags f).ports = s.ports := rfl

@[simp] theorem State.setPc_cfg (n : Nat) : (s.setPc n).cfg = s.cfg := rfl
@[simp] theorem State.setPc_regs (n : Nat) : (s.setPc n).regs = s.regs := rfl
@[simp] theorem State.setPc_flags (n : Nat) : (s.setPc n).flags = s.flags := rfl
@[simp] theorem State.setPc_pc (n : Nat) : (s.setPc n).pc = n := rfl
@[simp] theorem State.setPc_mem (n : Nat) : (s.setPc n).mem = s.mem := rfl
@[simp] theorem State.setPc_running (n : Nat) : (s.setPc n).running = s.running := rfl
@[simp] theorem State.setPc_fault (n : Nat) : (s.setPc n).fault = s.fault := rfl
@[simp] theorem State.setPc_protectedMemoryLength (n : Nat) : (s.setPc n).protectedMemoryLength = s.protectedMemoryLength := rfl
@[simp] theorem State.setPc_romImage (n : Nat) : (s.setPc n).romImage = s.romImage := rfl
@[simp] theorem State.setPc_ports (n : Nat) : (s.setPc n).ports = s.ports := rfl

@[simp] theorem State.setMem_cfg (m : Memory) : (s.setMem m).cfg = s.cfg := rfl
@[simp] theorem State.setMem_regs (m : Memory) : (s.setMem m).regs = s.regs := rfl
@[simp] theorem State.setMem_flags (m : Memory) : (s.setMem m).flags = s.flags := rfl
@[simp] theorem State.setMem_pc (m : Memory) : (s.setMem m).pc = s.pc := rfl
@[simp] theorem State.setMem_mem (m : Memory) : (s.setMem m).mem = m := rfl
@[simp] theorem State.setMem_running (m : Memory) : (s.setMem m).running = s.running := rfl
@[simp] theorem State.setMem_fault (m : Memory) : (s.setMem m).fault = s.fault := rfl
@[simp] theorem State.setMem_protectedMemoryLength (m : Memory) : (s.setMem m).protectedMemoryLength = s.protectedMemoryLength := rfl
@[simp] theorem State.setMem_romImage (m : Memory) : (s.setMem m).romImage = s.romImage := rfl
@[simp] theorem State.setMem_ports (m : Memory) : (s.setMem m).ports = s.ports := rfl

@[simp] theorem State.emit_cfg (es : List PortEvent) : (s.emit es).cfg = s.cfg := rfl
@[simp] theorem State.emit_regs (es : List PortEvent) : (s.emit es).regs = s.regs := rfl
@[simp] theorem State.emit_flags (es : List PortEvent) : (s.emit es).flags = s.flags := rfl
@[simp] theorem State.emit_pc (es : List PortEvent) : (s.emit es).pc = s.pc := rfl
@[simp] theorem State.emit_mem (es : List PortEvent) : (s.emit es).mem = s.mem := rfl
@[simp] theorem State.emit_running (es : List PortEvent) : (s.emit es).running = s.running := rfl
@[simp] theorem State.emit_fault (es : List PortEvent) : (s.emit es).fault = s.fault := rfl
@[simp] theorem State.emit_protectedMemoryLength (es : List PortEvent) : (s.emit es).protectedMemoryLength = s.protectedMemoryLength := rfl
@[simp] theorem State.emit_romImage (es : List PortEvent) : (s.emit es).romImage = s.romImage := rfl
@[simp] theorem State.emit_ports (es : List PortEvent) : (s.emit es).ports = s.ports ++ es := rfl

@[simp] theorem State.setRunning_cfg (r : Bool) : (s.setRunning r).cfg = s.cfg := rfl
@[simp] theorem State.setRunning_regs (r : Bool) : (s.setRunning r).regs = s.regs := rfl
@[simp] theorem State.setRunning_flags (r : Bool) : (s.setRunning r).flags = s.flags := rfl
@[simp] theorem State.setRunning_pc (r : Bool) : (s.setRunning r).pc = s.pc := rfl
@[simp] theorem State.setRunning_mem (r : Bool) : (s.setRunning r).mem = s.mem := rfl
@[simp] theorem State.setRunning_running (r : Bool) : (s.setRunning r).running = r := rfl
@[simp] theorem State.setRunning_fault (r : Bool) : (s.setRunning r).fault = s.fault := rfl
@[simp] theorem State.setRunning_protectedMemoryLength (r : Bool) : (s.setRunning r).protectedMemoryLength = s.protectedMemoryLength := rfl
@[simp] theorem State.setRunning_romImage (r : Bool) : (s.setRunning r).romImage = s.romImage := rfl
@[simp] theorem State.setRunning_ports (r : Bool) : (s.setRunning r).ports = s.ports := rfl

@[simp] theorem State.setFault_cfg (f : Option FaultRecord) : (s.setFault f).cfg = s.cfg := rfl
@[simp] theorem State.setFault_regs (f : Option FaultRecord) : (s.setFault f).regs = s.regs := rfl
@[simp] theorem State.setFault_flags (f : Option FaultRecord) : (s.setFault f).flags = s.flags := rfl
@[simp] theorem State.setFault_pc (f : Option FaultRecord) : (s.setFault f).pc = s.pc := rfl
@[simp] theorem State.setFault_mem (f : Option FaultRecord) : (s.setFault f).mem = s.mem := rfl
@[simp] theorem State.setFault_running (f : Option FaultRecord) : (s.setFault f).running = s.running := rfl
@[simp] theorem State.setFault_fault (f : Option FaultRecord) : (s.setFault f).fault = f := rfl
@[simp] theorem State.setFault_protectedMemoryLength (f : Option FaultRecord) : (s.setFault f).protectedMemoryLength = s.protectedMemoryLength := rfl
@[simp] theorem State.setFault_romImage (f : Option FaultRecord) : (s.setFault f).romImage = s.romImage := rfl
@[simp] theorem State.setFault_ports (f : Option FaultRecord) : (s.setFault f).ports = s.ports := rfl

@[simp] theorem State.setImage_cfg (image : List Byte) (n : Nat) : (s.setImage image n).cfg = s.cfg := rfl
@[simp] theorem State.setImage_regs (image : List Byte) (n : Nat) : (s.setImage image n).regs = s.regs := rfl
@[simp] theorem State.setImage_flags (image : List Byte) (n : Nat) : (s.setImage image n).flags = s.flags := rfl
@[simp] theorem State.setImage_pc (image : List Byte) (n : Nat) : (s.setImage image n).pc = s.pc := rfl
@[simp] theorem State.setImage_mem (image : List Byte) (n : Nat) : (s.setImage image n).mem = s.mem := rfl
@[simp] theorem State.setImage_running (image : List Byte) (n : Nat) : (s.setImage image n).running = s.running := rfl
@[simp] theorem State.setImage_fault (image : List Byte) (n : Nat) : (s.setImage image n).fault = s.fault := rfl
@[simp] theorem State.setImage_protectedMemoryLength (image : List Byte) (n : Nat) : (s.setImage image n).protectedMemoryLength = n := rfl
@[simp] theorem State.setImage_romImage (image : List Byte) (n : Nat) : (s.setImage image n).romImage = image := rfl
@[simp] theorem State.setImage_ports (image : List Byte) (n : Nat) : (s.setImage image n).ports = s.ports := rfl

@[simp] theorem advance_cfg (n : Nat) : (advance n s).cfg = s.cfg := rfl
@[simp] theorem advance_regs (n : Nat) : (advance n s).regs = s.regs := rfl
@[simp] theorem advance_flags (n : Nat) : (advance n s).flags = s.flags := rfl
@[simp] theorem advance_pc (n : Nat) : (advance n s).pc = s.pc + n := rfl
@[simp] theorem advance_mem (n : Nat) : (advance n s).mem = s.mem := rfl
@[simp] theorem advance_running (n : Nat) : (advance n s).running = s.running := rfl
@[simp] theorem advance_fault (n : Nat) : (advance n s).fault = s.fault := rfl
@[simp] theorem advance_protectedMemoryLength (n : Nat) : (advance n s).protectedMemoryLength = s.protectedMemoryLength := rfl
@[simp] theorem advance_romImage (n : Nat) : (advance n s).romImage = s.romImage := rfl
@[simp] theorem advance_ports (n : Nat) : (advance n s).ports = s.ports := rfl

@[simp] theorem storeByte_cfg (a : Nat) (v : Byte) : (storeByte a v s).cfg = s.cfg := rfl
@[simp] theorem storeByte_regs (a : Nat) (v : Byte) : (storeByte a v s).regs = s.regs := rfl
@[simp] theorem storeByte_flags (a : Nat) (v : Byte) : (storeByte a v s).flags = s.flags := rfl
@[simp] theorem storeByte_pc (a : Nat) (v : Byte) : (storeByte a v s).pc = s.pc := rfl
@[simp] theorem storeByte_mem (a : Nat) (v : Byte) : (storeByte a v s).mem = s.mem.write a v := rfl
@[simp] theorem storeByte_running (a : Nat) (v : Byte) : (storeByte a v s).running = s.running := rfl
@[simp] theorem storeByte_fault (a : Nat) (v : Byte) : (storeByte a v s).fault = s.fault := rfl
@[simp] theorem storeByte_protectedMemoryLength (a : Nat) (v : Byte) : (storeByte a v s).protectedMemoryLength = s.protectedMemoryLength := rfl
@[simp] theorem storeByte_romImage (a : Nat) (v : Byte) : (storeByte a v s).romImage = s.romImage := rfl
@[simp] theorem storeByte_ports (a : Nat) (v : Byte) : (storeByte a v s).ports = s.ports ++ portEvents s.cfg a v := rfl

@[simp] theorem setResult_cfg (w : Word) : (setResult w s).cfg = s.cfg := rfl
@[simp] theorem setResult_regs (w : Word) : (setResult w s).regs = { s.regs with a := lo8 w } := rfl
@[simp] theorem setResult_flags (w : Word) : (setResult w s).flags = checkFlags w := rfl
@[simp] theorem setResult_pc (w : Word) : (setResult w s).pc = s.pc := rfl
@[simp] theorem setResult_mem (w : Word) : (setResult w s).mem = s.mem := rfl
@[simp] theorem setResult_running (w : Word) : (setResult w s).running = s.running := rfl
@[simp] theorem setResult_fault (w : Word) : (setResult w s).fault = s.fault := rfl
@[simp] theorem setResult_protectedMemoryLength (w : Word) : (setResult w s).protectedMemoryLength = s.protectedMemoryLength := rfl
@[simp] theorem setResult_romImage (w : Word) : (setResult w s).romImage = s.romImage := rfl
@[simp] theorem setResult_ports (w : Word) : (setResult w s).ports = s.ports := rfl

@[simp] theorem setCompare_cfg (v : Byte) : (setCompare v s).cfg = s.cfg := rfl
@[simp] theorem setCompare_regs (v : Byte) : (setCompare v s).regs = s.regs := rfl
@[simp] theorem setCompare_flags (v : Byte) : (setCompare v s).flags = compareFlags s.regs.a v s.flags := rfl
@[simp] theorem setCompare_pc (v : Byte) : (setCompare v s).pc = s.pc := rfl
@[simp] theorem setCompare_mem (v : Byte) : (setCompare v s).mem = s.mem := rfl
@[simp] theorem setCompare_running (v : Byte) : (setCompare v s).running = s.running := rfl
@[simp] theorem setCompare_fault (v : Byte) : (setCompare v s).fault = s.fault := rfl
@[simp] theorem setCompare_protectedMemoryLength (v : Byte) : (setCompare v s).protectedMemoryLength = s.protectedMemoryLength := rfl
@[simp] theorem setCompare_romImage (v : Byte) : (setCompare v s).romImage = s.romImage := rfl
@[simp] theorem setCompare_ports (v : Byte) : (setCompare v s).ports = s.ports := rfl

@[simp] theorem setCarry_cfg (c : Bool) : (setCarry c s).cfg = s.cfg := rfl
@[simp] theorem setCarry_regs (c : Bool) : (setCarry c s).regs = s.regs := rfl
@[simp] theorem setCarry_flags (c : Bool) : (setCarry c s).flags = { s.flags with c := c } := rfl
@[simp] theorem setCarry_pc (c : Bool) : (setCarry c s).pc = s.pc := rfl
@[simp] theorem setCarry_mem (c : Bool) : (setCarry c s).mem = s.mem := rfl
@[simp] theorem setCarry_running (c : Bool) : (setCarry c s).running = s.running := rfl
@[simp] theorem setCarry_fault (c : Bool) : (setCarry c s).fault = s.fault := rfl
@[simp] theorem setCarry_protectedMemoryLength (c : Bool) : (setCarry c s).protectedMemoryLength = s.protectedMemoryLength := rfl
@[simp] theorem setCarry_romImage (c : Bool) : (setCarry c s).romImage = s.romImage := rfl
@[simp] theorem setCarry_ports (c : Bool) : (setCarry c s).ports = s.ports := rfl

@[simp] theorem takeFault_cfg (r : Raised) : (takeFault r).cfg = r.state.cfg := rfl
@[simp] theorem takeFault_regs (r : Raised) : (takeFault r).regs = r.state.regs := rfl
@[simp] theorem takeFault_flags (r : Raised) : (takeFault r).flags = r.state.flags := rfl
@[simp] theorem takeFault_pc (r : Raised) : (takeFault r).pc = r.state.pc := rfl
@[simp] theorem takeFault_mem (r : Raised) : (takeFault r).mem = r.state.mem := rfl
@[simp] theorem takeFault_running (r : Raised) : (takeFault r).running = false := rfl
@[simp] theorem takeFault_fault (r : Raised) : (takeFault r).fault = some r.record := rfl
@[simp] theorem takeFault_protectedMemoryLength (r : Raised) : (takeFault r).protectedMemoryLength = r.state.protectedMemoryLength := rfl
@[simp] theorem takeFault_romImage (r : Raised) : (takeFault r).romImage = r.state.romImage := rfl
@[simp] theorem takeFault_ports (r : Raised) : (takeFault r).ports = r.state.ports := rfl

@[simp] theorem stopAtEnd_cfg : (stopAtEnd s).cfg = s.cfg := by unfold stopAtEnd; split <;> rfl
@[simp] theorem stopAtEnd_regs : (stopAtEnd s).regs = s.regs := by unfold stopAtEnd; split <;> rfl
@[simp] theorem stopAtEnd_flags : (stopAtEnd s).flags = s.flags := by unfold stopAtEnd; split <;> rfl
@[simp] theorem stopAtEnd_pc : (stopAtEnd s).pc = s.pc := by unfold stopAtEnd; split <;> rfl
@[simp] theorem stopAtEnd_mem : (stopAtEnd s).mem = s.mem := by unfold stopAtEnd; split <;> rfl
@[simp] theorem stopAtEnd_fault : (stopAtEnd s).fault = s.fault := by unfold stopAtEnd; split <;> rfl
@[simp] theorem stopAtEnd_protectedMemoryLength : (stopAtEnd s).protectedMemoryLength = s.protectedMemoryLength := by unfold stopAtEnd; split <;> rfl
@[simp] theorem stopAtEnd_romImage : (stopAtEnd s).romImage = s.romImage := by unfold stopAtEnd; split <;> rfl
@[simp] theorem stopAtEnd_ports : (stopAtEnd s).ports = s.ports := by unfold stopAtEnd; split <;> rfl

theorem stopAtEnd_running :
    (stopAtEnd s).running = (if s.cfg.totalSize ≤ s.pc then false else s.running) := by
  unfold stopAtEnd; split <;> rfl

@[simp] theorem pairWrite_cfg (p : Pair) (v : Word) : (pairWrite p v s).cfg = s.cfg := by cases p <;> rfl
@[simp] theorem pairWrite_flags (p : Pair) (v : Word) : (pairWrite p v s).flags = s.flags := by cases p <;> rfl
@[simp] theorem pairWrite_pc (p : Pair) (v : Word) : (pairWrite p v s).pc = s.pc := by cases p <;> rfl
@[simp] theorem pairWrite_mem (p : Pair) (v : Word) : (pairWrite p v s).mem = s.mem := by cases p <;> rfl
@[simp] theorem pairWrite_running (p : Pair) (v : Word) : (pairWrite p v s).running = s.running := by cases p <;> rfl
@[simp] theorem pairWrite_fault (p : Pair) (v : Word) : (pairWrite p v s).fault = s.fault := by cases p <;> rfl
@[simp] theorem pairWrite_protectedMemoryLength (p : Pair) (v : Word) : (pairWrite p v s).protectedMemoryLength = s.protectedMemoryLength := by cases p <;> rfl
@[simp] theorem pairWrite_romImage (p : Pair) (v : Word) : (pairWrite p v s).romImage = s.romImage := by cases p <;> rfl
@[simp] theorem pairWrite_ports (p : Pair) (v : Word) : (pairWrite p v s).ports = s.ports := by cases p <;> rfl

end Sys2Proof.Machine
end

