-- ==== Sys2Proof/Laws/Ops.lean ====
section
/-! SUPPORT. One lemma per shared operation that says when it goes on and what it leaves, and when it faults. Proofs
about instructions cite these instead of unfolding the operations. -/

namespace Sys2Proof.Machine

@[simp] theorem attempt_bind_ok {α β : Type} (v : α) (f : α → Attempt β) : ((Except.ok v : Attempt α) >>= f) = f v := rfl

@[simp] theorem attempt_bind_error {α β : Type} (r : Raised) (f : α → Attempt β) :
    ((Except.error r : Attempt α) >>= f) = .error r := rfl

@[simp] theorem conclude_ok (s : State) : conclude (.ok s) = .next s := rfl

@[simp] theorem conclude_error (r : Raised) : conclude (.error r) = .next (takeFault r) := rfl

@[simp] theorem raiseFault_eq {α : Type} (r : FaultRecord) (s : State) : (raiseFault r s : Attempt α) = .error ⟨r, s⟩ := rfl

/-- An attempt that went on through a bind did so in both parts. -/
theorem attempt_bind_eq_ok {α β : Type} {x : Attempt α} {f : α → Attempt β} {b : β} :
    (x >>= f) = .ok b ↔ ∃ a, x = .ok a ∧ f a = .ok b := by
  cases x <;> simp

/-- An attempt that raised through a bind did so in one of the parts. -/
theorem attempt_bind_eq_error {α β : Type} {x : Attempt α} {f : α → Attempt β} {r : Raised} :
    (x >>= f) = .error r ↔ x = .error r ∨ ∃ a, x = .ok a ∧ f a = .error r := by
  cases x <;> simp

/-- The clauses of configuration well-formedness (R330). -/
theorem config_wf_iff (c : Config) : c.wf = true ↔
    c.romSize < c.ramStart ∧ c.ramStart ≤ c.ramEnd ∧ c.ramEnd < c.totalSize ∧ c.totalSize ≤ 0xFFFF ∧
    c.romSize ≤ c.stackPointerLocation ∧ c.stackPointerLocation + 1 ≤ c.totalSize ∧
    (c.stackPointerLocation + 1 < c.inOutPortsStart ∨ c.inOutPortsStart + c.portRowLen ≤ c.stackPointerLocation) ∧
    1 ≤ c.stackAddress ∧ c.stackAddress ≤ c.totalSize ∧ c.romSize ≤ c.stackAddress - 1 ∧
    c.romSize ≤ c.inOutPortsStart ∧ 1 ≤ c.portRowLen ∧ c.inOutPortsStart + c.portRowLen - 1 ≤ c.totalSize ∧
    c.opc.wf = true := by
  simp [Config.wf]

@[simp] theorem cfgT_wf : Config.cfgT.wf = true := by decide

@[simp] theorem cfgS_wf : Config.cfgS.wf = true := by decide

/-! ### Reads -/

theorem memRead_ok {a : Nat} {s : State} (h : s.readable a) : memRead a s = .ok (s.mem.read a) := by
  simp [memRead, Nat.not_lt.2 h]

theorem memRead_range {a : Nat} {s : State} (h : s.cfg.totalSize < a) :
    memRead a s = .error ⟨.memoryRange a, s⟩ := by
  simp [memRead, h]

/-- Everything a read can do (R66). -/
theorem memRead_cases (a : Nat) (s : State) :
    (s.readable a ∧ memRead a s = .ok (s.mem.read a)) ∨
    (s.cfg.totalSize < a ∧ memRead a s = .error ⟨.memoryRange a, s⟩) := by
  rcases Nat.lt_or_ge s.cfg.totalSize a with h | h
  · exact .inr ⟨h, memRead_range h⟩
  · exact .inl ⟨h, memRead_ok h⟩

theorem memRead16_ok {a : Nat} {s : State} (h : s.readable (a + 1)) :
    memRead16 a s = .ok (wordOf (s.mem.read a) (s.mem.read (a + 1))) := by
  rw [memRead16, memRead_ok (show s.readable a by unfold State.readable at *; omega), attempt_bind_ok,
    memRead_ok h, attempt_bind_ok]

/-- Everything a two-byte read can do (R67). -/
theorem memRead16_cases (a : Nat) (s : State) :
    (s.readable (a + 1) ∧ memRead16 a s = .ok (wordOf (s.mem.read a) (s.mem.read (a + 1)))) ∨
    (s.cfg.totalSize < a ∧ memRead16 a s = .error ⟨.memoryRange a, s⟩) ∨
    (s.cfg.totalSize = a ∧ memRead16 a s = .error ⟨.memoryRange (a + 1), s⟩) := by
  rcases Nat.lt_trichotomy s.cfg.totalSize a with h | h | h
  · exact .inr (.inl ⟨h, by rw [memRead16, memRead_range h, attempt_bind_error]⟩)
  · refine .inr (.inr ⟨h, ?_⟩)
    rw [memRead16, memRead_ok (show s.readable a by unfold State.readable; omega), attempt_bind_ok,
      memRead_range (show s.cfg.totalSize < a + 1 by omega), attempt_bind_error]
  · exact .inl ⟨h, memRead16_ok h⟩

/-- Everything a register operand's read can do (R13): it reads `s.operand`, or faults at HL. -/
theorem regRead_ok {r : Reg8} {s : State} (h : s.operandReadable r) : regRead r s = .ok (s.operand r) := by
  cases r <;> first | rfl | exact memRead_ok (h rfl)

theorem regRead_range {s : State} (h : s.cfg.totalSize < s.hl.toNat) :
    regRead .m s = .error ⟨.memoryRange s.hl.toNat, s⟩ := memRead_range h

theorem regRead_cases (r : Reg8) (s : State) :
    (s.operandReadable r ∧ regRead r s = .ok (s.operand r)) ∨
    (r = .m ∧ s.cfg.totalSize < s.hl.toNat ∧ regRead r s = .error ⟨.memoryRange s.hl.toNat, s⟩) := by
  rcases Nat.lt_or_ge s.cfg.totalSize s.hl.toNat with h | h
  · by_cases hr : r = .m
    · subst hr; exact .inr ⟨rfl, h, regRead_range h⟩
    · exact .inl ⟨fun e => absurd e hr, regRead_ok fun e => absurd e hr⟩
  · exact .inl ⟨fun _ => h, regRead_ok fun _ => h⟩

/-! ### Writes -/

theorem memWrite_ok {a : Nat} {v : Byte} {s : State} (h : s.writable a) : memWrite a v s = .ok (storeByte a v s) := by
  simp [memWrite, Nat.not_lt.2 h.1, Nat.not_lt.2 h.2]

theorem memWrite_protected {a : Nat} {v : Byte} {s : State} (h : a < s.cfg.romSize) :
    memWrite a v s = .error ⟨.protectedMemoryWrite a, s⟩ := by
  simp [memWrite, h]

theorem memWrite_range {a : Nat} {v : Byte} {s : State} (hp : s.cfg.romSize ≤ a) (h : s.cfg.totalSize < a) :
    memWrite a v s = .error ⟨.memoryRange a, s⟩ := by
  simp [memWrite, Nat.not_lt.2 hp, h]

/-- Everything a write can do (R68). -/
theorem memWrite_cases (a : Nat) (v : Byte) (s : State) :
    (s.writable a ∧ memWrite a v s = .ok (storeByte a v s)) ∨
    (a < s.cfg.romSize ∧ memWrite a v s = .error ⟨.protectedMemoryWrite a, s⟩) ∨
    (s.cfg.romSize ≤ a ∧ s.cfg.totalSize < a ∧ memWrite a v s = .error ⟨.memoryRange a, s⟩) := by
  rcases Nat.lt_or_ge a s.cfg.romSize with hp | hp
  · exact .inr (.inl ⟨hp, memWrite_protected hp⟩)
  · rcases Nat.lt_or_ge s.cfg.totalSize a with h | h
    · exact .inr (.inr ⟨hp, h, memWrite_range hp h⟩)
    · exact .inl ⟨⟨hp, h⟩, memWrite_ok ⟨hp, h⟩⟩

theorem regWrite_reg {r : Reg8} (hr : r ≠ .m) (v : Byte) (s : State) :
    regWrite r v s = .ok (s.setRegs (s.regs.put r v)) := by
  cases r <;> first | rfl | exact absurd rfl hr

theorem regWrite_m (v : Byte) (s : State) : regWrite .m v s = memWrite s.hl.toNat v s := rfl

theorem portEvents_outside {cfg : Config} {a : Nat} (h : a < cfg.inOutPortsStart ∨ cfg.inOutPortsStart + cfg.portRowLen ≤ a)
    (v : Byte) : portEvents cfg a v = [] := by
  unfold portEvents
  rw [if_neg (by omega)]

theorem portEvents_index {cfg : Config} {a : Nat} {v : Byte} {e : PortEvent} (h : e ∈ portEvents cfg a v) :
    e.index < cfg.portRowLen := by
  unfold portEvents at h
  split at h
  · simp only [List.mem_singleton] at h; subst h; show a - _ < _; omega
  · simp at h

/-! ### The stack pointer and the stack -/

theorem readSp_ok {s : State} (hc : s.cfg.wf = true) : readSp s = .ok s.sp := by
  have := (config_wf_iff _).1 hc
  exact memRead16_ok (show _ ≤ _ by omega)

/-- The state after `SP <- v`. -/
def withSp (v : Word) (s : State) : State :=
  s.setMem ((s.mem.write s.cfg.stackPointerLocation (lo8 v)).write (s.cfg.stackPointerLocation + 1) (hi8 v))

theorem writeSp_ok {s : State} (hc : s.cfg.wf = true) (v : Word) : writeSp v s = .ok (withSp v s) := by
  have hw := (config_wf_iff _).1 hc
  unfold writeSp memWrite16
  rw [memWrite_ok (⟨by omega, by omega⟩ : s.writable _), attempt_bind_ok,
    memWrite_ok (show (storeByte _ _ s).writable _ from ⟨by simp; omega, by simp; omega⟩)]
  congr 1
  simp only [storeByte, withSp, State.setMem_cfg, State.emit_cfg, State.setMem_mem, State.emit_mem]
  rw [portEvents_outside (by omega), portEvents_outside (by omega)]
  simp [State.emit, State.setMem]

theorem withSp_sp (v : Word) (s : State) : (withSp v s).sp = v := by
  simp [withSp, State.sp]

/-- `PushStack` where both stack bytes can be written (R260). -/
theorem pushStack_ok {s : State} (hc : s.cfg.wf = true) (v : Word) (h0 : s.writable s.sp.toNat)
    (h1 : s.writable (s.sp - 1#16).toNat) :
    pushStack v s =
      .ok (withSp (s.sp - 2#16) (storeByte (s.sp - 1#16).toNat (lo8 v) (storeByte s.sp.toNat (hi8 v) s))) := by
  unfold pushStack
  rw [readSp_ok hc, attempt_bind_ok, memWrite_ok h0, attempt_bind_ok, memWrite_ok (s := storeByte _ _ s) h1, attempt_bind_ok,
    writeSp_ok (by simpa using hc)]

/-- `PopStack` where both stack bytes can be read (R261). -/
theorem popStack_ok {s : State} (hc : s.cfg.wf = true) (h2 : s.readable (s.sp + 2#16).toNat)
    (h1 : s.readable (s.sp + 1#16).toNat) :
    popStack s =
      .ok (wordOf (s.mem.read (s.sp + 1#16).toNat) (s.mem.read (s.sp + 2#16).toNat), withSp (s.sp + 2#16) s) := by
  unfold popStack
  rw [readSp_ok hc, attempt_bind_ok, memRead_ok h2, attempt_bind_ok, memRead_ok h1, attempt_bind_ok, writeSp_ok hc,
    attempt_bind_ok]

/-- Everything `PushStack` can do, first stack byte first (R260, R288). -/
theorem pushStack_cases {s : State} (hc : s.cfg.wf = true) (v : Word) :
    (s.writable s.sp.toNat ∧ s.writable (s.sp - 1#16).toNat ∧ pushStack v s =
      .ok (withSp (s.sp - 2#16) (storeByte (s.sp - 1#16).toNat (lo8 v) (storeByte s.sp.toNat (hi8 v) s)))) ∨
    (∃ r, memWrite s.sp.toNat (hi8 v) s = .error r ∧ pushStack v s = .error r) ∨
    (s.writable s.sp.toNat ∧ ∃ r, memWrite (s.sp - 1#16).toNat (lo8 v) (storeByte s.sp.toNat (hi8 v) s) = .error r ∧
      pushStack v s = .error r) := by
  rcases memWrite_cases s.sp.toNat (hi8 v) s with ⟨h0, _⟩ | ⟨_, e⟩ | ⟨_, _, e⟩
  · rcases memWrite_cases (s.sp - 1#16).toNat (lo8 v) (storeByte s.sp.toNat (hi8 v) s) with ⟨h1, _⟩ | ⟨_, e⟩ | ⟨_, _, e⟩
    · exact .inl ⟨h0, h1, pushStack_ok hc v h0 h1⟩
    all_goals
      refine .inr (.inr ⟨h0, _, e, ?_⟩)
      unfold pushStack
      rw [readSp_ok hc, attempt_bind_ok, memWrite_ok h0, attempt_bind_ok, e, attempt_bind_error]
  all_goals
    refine .inr (.inl ⟨_, e, ?_⟩)
    unfold pushStack
    rw [readSp_ok hc, attempt_bind_ok, e, attempt_bind_error]

/-- Everything `PopStack` can do, high byte first (R261). -/
theorem popStack_cases {s : State} (hc : s.cfg.wf = true) :
    (s.readable (s.sp + 2#16).toNat ∧ s.readable (s.sp + 1#16).toNat ∧ popStack s =
      .ok (wordOf (s.mem.read (s.sp + 1#16).toNat) (s.mem.read (s.sp + 2#16).toNat), withSp (s.sp + 2#16) s)) ∨
    (s.cfg.totalSize < (s.sp + 2#16).toNat ∧ popStack s = .error ⟨.memoryRange (s.sp + 2#16).toNat, s⟩) ∨
    (s.readable (s.sp + 2#16).toNat ∧ s.cfg.totalSize < (s.sp + 1#16).toNat ∧
      popStack s = .error ⟨.memoryRange (s.sp + 1#16).toNat, s⟩) := by
  rcases memRead_cases (s.sp + 2#16).toNat s with ⟨h2, e2⟩ | ⟨h2, e2⟩
  · rcases memRead_cases (s.sp + 1#16).toNat s with ⟨h1, e1⟩ | ⟨h1, e1⟩
    · exact .inl ⟨h2, h1, popStack_ok hc h2 h1⟩
    · refine .inr (.inr ⟨h2, h1, ?_⟩)
      unfold popStack
      rw [readSp_ok hc, attempt_bind_ok, e2, attempt_bind_ok, e1, attempt_bind_error]
  · refine .inr (.inl ⟨h2, ?_⟩)
    unfold popStack
    rw [readSp_ok hc, attempt_bind_ok, e2, attempt_bind_error]

end Sys2Proof.Machine
end

