-- ==== Sys2Proof/Laws/Exec.lean ====
section
/-! SUPPORT. Said once: everything an instruction can do to the state outside its registers and flags. Whatever
`exec` answers came from the state by a list of byte stores that passed their checks; the configuration, the image and
its recorded length are as before; the fault latch and the run state are as before, or the instruction is HLT, or it
ended in fault entry with `pc` where it was. Invariants of every step are derived from `exec_outcome`. -/

namespace Sys2Proof.Machine

/-- `t` came from `s` by the checked stores `ws`, in that order, and by changes of registers, flags and `pc`. -/
structure Evolved (s t : State) (ws : List Host.Cell) : Prop where
  cfg : t.cfg = s.cfg
  romImage : t.romImage = s.romImage
  protectedMemoryLength : t.protectedMemoryLength = s.protectedMemoryLength
  fault : t.fault = s.fault
  running : t.running = s.running
  writable : ∀ w ∈ ws, s.writable w.1
  mem : t.mem = ws.foldl (fun m w => m.write w.1 w.2) s.mem
  ports : t.ports = s.ports ++ ws.flatMap fun w => portEvents s.cfg w.1 w.2

/-- Some list of stores leads from `s` to `t`. -/
def EvolvesTo (s t : State) : Prop := ∃ ws, Evolved s t ws

theorem EvolvesTo.refl (s : State) : EvolvesTo s s := ⟨[], rfl, rfl, rfl, rfl, rfl, by simp, rfl, by simp⟩

theorem EvolvesTo.trans {s t u : State} (h1 : EvolvesTo s t) (h2 : EvolvesTo t u) : EvolvesTo s u := by
  obtain ⟨ws1, h1⟩ := h1
  obtain ⟨ws2, h2⟩ := h2
  refine ⟨ws1 ++ ws2, h2.cfg.trans h1.cfg, h2.romImage.trans h1.romImage,
    h2.protectedMemoryLength.trans h1.protectedMemoryLength, h2.fault.trans h1.fault,
    h2.running.trans h1.running, ?_, ?_, ?_⟩
  · intro w hw
    rcases List.mem_append.1 hw with hw | hw
    · exact h1.writable w hw
    · have := h2.writable w hw
      rwa [State.writable, h1.cfg] at this
  · rw [h2.mem, h1.mem, List.foldl_append]
  · rw [h2.ports, h1.ports, h1.cfg, List.flatMap_append, List.append_assoc]

theorem EvolvesTo.store {s : State} {a : Nat} (h : s.writable a) (v : Byte) : EvolvesTo s (storeByte a v s) :=
  ⟨[(a, v)], rfl, rfl, rfl, rfl, rfl, by simpa using h, rfl, by simp⟩

/-- A change of registers, flags and `pc` stores nothing. -/
theorem EvolvesTo.noStore {s t : State} (hc : t.cfg = s.cfg) (hi : t.romImage = s.romImage)
    (hp : t.protectedMemoryLength = s.protectedMemoryLength) (hf : t.fault = s.fault)
    (hr : t.running = s.running) (hm : t.mem = s.mem) (ho : t.ports = s.ports) : EvolvesTo s t :=
  ⟨[], hc, hi, hp, hf, hr, by simp, hm, by simp [ho]⟩

/-- How an attempt made in `s` can end: it goes on, with `pc` as `P` says, or it raises with `pc` unmoved. -/
def Ends (s : State) (P : Nat → Prop) : Attempt State → Prop
  | .ok t => EvolvesTo s t ∧ P t.pc
  | .error r => EvolvesTo s r.state ∧ r.state.pc = s.pc

theorem Ends.bind {s : State} {P : Nat → Prop} {x : Attempt State} {f : State → Attempt State}
    (hx : Ends s (· = s.pc) x) (hf : ∀ t, EvolvesTo s t → t.pc = s.pc → Ends t P (f t)) : Ends s P (x >>= f) := by
  cases x with
  | error r => exact hx
  | ok t =>
    have hft := hf t hx.1 hx.2
    rw [attempt_bind_ok]
    revert hft
    cases f t with
    | error r => exact fun h => ⟨hx.1.trans h.1, h.2.trans hx.2⟩
    | ok u => exact fun h => ⟨hx.1.trans h.1, h.2⟩

/-- A read raises in the state it was made in. -/
def RaisesHere {α : Type} (s : State) (x : Attempt α) : Prop := ∀ r, x = .error r → r.state = s

theorem Ends.bindRead {α : Type} {s : State} {P : Nat → Prop} {x : Attempt α} {f : α → Attempt State}
    (hx : RaisesHere s x) (hf : ∀ v, Ends s P (f v)) : Ends s P (x >>= f) := by
  cases x with
  | error r =>
    have := hx r rfl
    exact ⟨this ▸ EvolvesTo.refl _, by rw [this]⟩
  | ok v => exact hf v

theorem memRead_raisesHere (a : Nat) (s : State) : RaisesHere s (memRead a s) := by
  intro r h
  rcases memRead_cases a s with ⟨_, e⟩ | ⟨_, e⟩ <;> rw [e] at h <;> cases h
  rfl

theorem memRead16_raisesHere (a : Nat) (s : State) : RaisesHere s (memRead16 a s) := by
  intro r h
  rcases memRead16_cases a s with ⟨_, e⟩ | ⟨_, e⟩ | ⟨_, e⟩ <;> rw [e] at h <;> cases h <;> rfl

theorem regRead_raisesHere (r : Reg8) (s : State) : RaisesHere s (regRead r s) := by
  intro x h
  rcases regRead_cases r s with ⟨_, e⟩ | ⟨_, _, e⟩ <;> rw [e] at h <;> cases h
  rfl

theorem memWrite_ends (a : Nat) (v : Byte) (s : State) : Ends s (· = s.pc) (memWrite a v s) := by
  rcases memWrite_cases a v s with ⟨h, e⟩ | ⟨_, e⟩ | ⟨_, _, e⟩ <;> rw [e]
  · exact ⟨EvolvesTo.store h v, rfl⟩
  · exact ⟨EvolvesTo.refl s, rfl⟩
  · exact ⟨EvolvesTo.refl s, rfl⟩

theorem memWrite16_ends (a : Nat) (v : Word) (s : State) : Ends s (· = s.pc) (memWrite16 a v s) :=
  (memWrite_ends a _ s).bind fun t _ hp => hp ▸ memWrite_ends (a + 1) _ t

theorem regWrite_ends (r : Reg8) (v : Byte) (s : State) : Ends s (· = s.pc) (regWrite r v s) := by
  by_cases h : r = .m
  · subst h; exact memWrite_ends _ v s
  · rw [regWrite_reg h]; exact ⟨EvolvesTo.noStore rfl rfl rfl rfl rfl rfl rfl, rfl⟩

theorem pushStack_ends (v : Word) (s : State) : Ends s (· = s.pc) (pushStack v s) := by
  refine Ends.bindRead (memRead16_raisesHere _ s) fun sp => ?_
  refine (memWrite_ends _ _ s).bind fun t _ ht => ?_
  rw [← ht]
  refine (memWrite_ends _ _ t).bind fun u _ hu => ?_
  rw [← hu]
  exact memWrite16_ends _ _ u

theorem popStack_ends {P : Nat → Prop} {s : State} {f : Word × State → Attempt State}
    (hf : ∀ w t, EvolvesTo s t → t.pc = s.pc → Ends t P (f (w, t))) : Ends s P (popStack s >>= f) := by
  have key : ∀ {α β γ : Type} (x : Attempt α) (g : α → Attempt β) (h : β → Attempt γ),
      ((x >>= g) >>= h) = x >>= fun a => g a >>= h := by
    intro α β γ x g h; cases x <;> rfl
  unfold popStack
  rw [key]
  refine Ends.bindRead (memRead16_raisesHere _ s) fun sp => ?_
  rw [key]
  refine Ends.bindRead (memRead_raisesHere _ s) fun hi => ?_
  rw [key]
  refine Ends.bindRead (memRead_raisesHere _ s) fun lo => ?_
  rw [key]
  exact (memWrite16_ends _ _ s).bind fun t he ht => hf _ t he ht

/-! ### Memory and stack operations leave registers and flags alone -/

/-- The attempt leaves the registers and flags of `s` as they are, whether it goes on or raises. -/
def KeepsRegs (s : State) : Attempt State → Prop
  | .ok t => t.regs = s.regs ∧ t.flags = s.flags
  | .error r => r.state.regs = s.regs ∧ r.state.flags = s.flags

theorem KeepsRegs.bind {s : State} {x : Attempt State} {f : State → Attempt State} (hx : KeepsRegs s x)
    (hf : ∀ t, KeepsRegs t (f t)) : KeepsRegs s (x >>= f) := by
  cases x with
  | error r => exact hx
  | ok t =>
    have := hf t
    rw [attempt_bind_ok]
    revert this
    cases f t with
    | error r => exact fun h => ⟨h.1.trans hx.1, h.2.trans hx.2⟩
    | ok u => exact fun h => ⟨h.1.trans hx.1, h.2.trans hx.2⟩

theorem KeepsRegs.bindRead {α : Type} {s : State} {x : Attempt α} {f : α → Attempt State} (hx : RaisesHere s x)
    (hf : ∀ v, KeepsRegs s (f v)) : KeepsRegs s (x >>= f) := by
  cases x with
  | error r => have := hx r rfl; exact ⟨by rw [this], by rw [this]⟩
  | ok v => exact hf v

theorem memWrite_keepsRegs (a : Nat) (v : Byte) (s : State) : KeepsRegs s (memWrite a v s) := by
  rcases memWrite_cases a v s with ⟨_, e⟩ | ⟨_, e⟩ | ⟨_, _, e⟩ <;> rw [e] <;> exact ⟨rfl, rfl⟩

theorem memWrite16_keepsRegs (a : Nat) (v : Word) (s : State) : KeepsRegs s (memWrite16 a v s) :=
  (memWrite_keepsRegs a _ s).bind fun t => memWrite_keepsRegs (a + 1) _ t

theorem pushStack_keepsRegs (v : Word) (s : State) : KeepsRegs s (pushStack v s) :=
  KeepsRegs.bindRead (memRead16_raisesHere _ s) fun _ =>
    (memWrite_keepsRegs _ _ s).bind fun t => (memWrite_keepsRegs _ _ t).bind fun u => memWrite16_keepsRegs _ _ u

/-- What `PopStack` answers, it answers in a state with the same registers and flags. -/
theorem popStack_keepsRegs (s : State) :
    (∀ w t, popStack s = .ok (w, t) → t.regs = s.regs ∧ t.flags = s.flags) ∧
    (∀ r, popStack s = .error r → r.state.regs = s.regs ∧ r.state.flags = s.flags) := by
  unfold popStack readSp writeSp
  constructor
  · intro w t h
    obtain ⟨sp, _, h⟩ := attempt_bind_eq_ok.1 h
    obtain ⟨hi, _, h⟩ := attempt_bind_eq_ok.1 h
    obtain ⟨lo, _, h⟩ := attempt_bind_eq_ok.1 h
    obtain ⟨u, hu, h⟩ := attempt_bind_eq_ok.1 h
    cases h
    have := memWrite16_keepsRegs s.cfg.stackPointerLocation (sp + 2#16) s
    rwa [hu] at this
  · intro r h
    rcases attempt_bind_eq_error.1 h with h | ⟨sp, _, h⟩
    · rw [memRead16_raisesHere _ s r h]; exact ⟨rfl, rfl⟩
    rcases attempt_bind_eq_error.1 h with h | ⟨hi, _, h⟩
    · rw [memRead_raisesHere _ s r h]; exact ⟨rfl, rfl⟩
    rcases attempt_bind_eq_error.1 h with h | ⟨lo, _, h⟩
    · rw [memRead_raisesHere _ s r h]; exact ⟨rfl, rfl⟩
    rcases attempt_bind_eq_error.1 h with h | ⟨u, _, h⟩
    · have := memWrite16_keepsRegs s.cfg.stackPointerLocation (sp + 2#16) s
      rwa [h] at this
    · cases h

/-! ### Every instruction -/

/-- Where `pc` can be after an instruction of `n` bytes: past it, or at a 16-bit target (10_state.md R26). -/
def PcAfter (s : State) (n : Nat) (pc : Nat) : Prop := pc = s.pc + n ∨ pc < 65536

/-- The instruction's effect, before fault entry. -/
theorem ends_update {s t : State} {n : Nat} (hc : t.cfg = s.cfg) (hi : t.romImage = s.romImage)
    (hp : t.protectedMemoryLength = s.protectedMemoryLength) (hf : t.fault = s.fault)
    (hr : t.running = s.running) (hm : t.mem = s.mem) (ho : t.ports = s.ports)
    (hpc : PcAfter s n t.pc) : Ends s (PcAfter s n) (.ok t) :=
  ⟨EvolvesTo.noStore hc hi hp hf hr hm ho, hpc⟩

theorem jumpIf_ends (taken : Bool) (t : Word) (s : State) : Ends s (PcAfter s 3) (.ok (jumpIf taken t s)) := by
  cases taken
  · exact ends_update rfl rfl rfl rfl rfl rfl rfl (.inl rfl)
  · exact ends_update rfl rfl rfl rfl rfl rfl rfl (.inr t.isLt)

theorem callIf_ends (taken : Bool) (t : Word) (s : State) : Ends s (PcAfter s 3) (callIf taken t s) := by
  cases taken
  · exact ends_update rfl rfl rfl rfl rfl rfl rfl (.inl rfl)
  · exact (pushStack_ends _ s).bind fun u _ _ =>
      ⟨EvolvesTo.noStore rfl rfl rfl rfl rfl rfl rfl, .inr t.isLt⟩

theorem returnIf_ends (taken : Bool) (s : State) : Ends s (PcAfter s 1) (returnIf taken s) := by
  cases taken
  · exact ends_update rfl rfl rfl rfl rfl rfl rfl (.inl rfl)
  · exact popStack_ends fun w u _ _ => ⟨EvolvesTo.noStore rfl rfl rfl rfl rfl rfl rfl, .inr w.isLt⟩

theorem loadA_ends (a : Word) (n : Nat) (s : State) : Ends s (PcAfter s n) (loadA a n s) :=
  Ends.bindRead (memRead_raisesHere _ s) fun _ => ends_update rfl rfl rfl rfl rfl rfl rfl (.inl rfl)

theorem storeA_ends (a : Word) (n : Nat) (s : State) : Ends s (PcAfter s n) (storeA a n s) :=
  (memWrite_ends _ _ s).bind fun u _ hu =>
    ⟨EvolvesTo.noStore rfl rfl rfl rfl rfl rfl rfl, .inl (by rw [advance_pc, hu])⟩

theorem pushPair_ends (p : Pair) (s : State) : Ends s (PcAfter s 1) (pushPair p s) :=
  (pushStack_ends _ s).bind fun u _ hu =>
    ⟨EvolvesTo.noStore rfl rfl rfl rfl rfl rfl rfl, .inl (by rw [advance_pc, hu])⟩

theorem popPair_ends (p : Pair) (s : State) : Ends s (PcAfter s 1) (popPair p s) :=
  popStack_ends fun w u _ hu =>
    ⟨EvolvesTo.noStore (by simp) (by simp) (by simp) (by simp) (by simp) (by simp) (by simp), .inl (by simp [hu])⟩

/-- Reading a register operand and then changing registers, flags and `pc` only. -/
theorem readThen_ends {r : Reg8} {s : State} {n : Nat} {f : Byte → State}
    (hf : ∀ v, EvolvesTo s (f v) ∧ (f v).pc = s.pc + n) :
    Ends s (PcAfter s n) (regRead r s >>= fun v => .ok (f v)) :=
  Ends.bindRead (regRead_raisesHere r s) fun v => ⟨(hf v).1, .inl (hf v).2⟩

/-- The result is the end of an attempt made in `s`, and so never a stop of the model. -/
def Concludes (s : State) (P : Nat → Prop) (res : Result) : Prop := ∃ x, res = conclude x ∧ Ends s P x

theorem Concludes.mk {s : State} {P : Nat → Prop} {x : Attempt State} (hx : Ends s P x) : Concludes s P (conclude x) :=
  ⟨x, rfl, hx⟩

theorem Concludes.next {s t : State} {P : Nat → Prop} (ht : Ends s P (.ok t)) : Concludes s P (.next t) := ⟨.ok t, rfl, ht⟩

/-- Every instruction but HLT, which stops the engine, concludes. -/
theorem exec_concludes {i : Instr} (hi : i ≠ .hlt) (s : State) : Concludes s (PcAfter s i.length) (exec i s) := by
  cases i
  case hlt => exact absurd rfl hi
  case mov dst src =>
    exact Concludes.mk (Ends.bindRead (regRead_raisesHere src s) fun v => (regWrite_ends dst v s).bind fun u _ hu =>
      ⟨EvolvesTo.noStore rfl rfl rfl rfl rfl rfl rfl, .inl (by rw [advance_pc, hu]; rfl)⟩)
  case mvi dst v =>
    exact Concludes.mk ((regWrite_ends dst v s).bind fun u _ hu =>
      ⟨EvolvesTo.noStore rfl rfl rfl rfl rfl rfl rfl, .inl (by rw [advance_pc, hu]; rfl)⟩)
  case staxB | staxD | sta => exact Concludes.mk (storeA_ends _ _ s)
  case ldaxB | ldaxD | lda => exact Concludes.mk (loadA_ends _ _ s)
  case add | adc | sub | sbb | ana | xra | ora | cmp =>
    exact Concludes.mk (readThen_ends fun _ => ⟨EvolvesTo.noStore rfl rfl rfl rfl rfl rfl rfl, rfl⟩)
  case jmp | jnz | jz | jnc | jc | jpo | jpe | jp | jm => exact Concludes.mk (jumpIf_ends _ _ s)
  case call | cnz | cz | cnc | cc | cpo | cpe | cp | cm => exact Concludes.mk (callIf_ends _ _ s)
  case ret | rnz | rz | rnc | rc | rpo | rpe | rp | rm => exact Concludes.mk (returnIf_ends _ s)
  case pushB | pushD | pushH => exact Concludes.mk (pushPair_ends _ s)
  case popB | popD | popH => exact Concludes.mk (popPair_ends _ s)
  all_goals refine Concludes.next ?_; exact ends_update rfl rfl rfl rfl rfl rfl rfl (.inl rfl)

/-- HLT, whole (44_stack_control.md R267). -/
theorem exec_hlt (s : State) : exec .hlt s = .next (advance 1 (s.setRunning false)) := rfl

/-- Every instruction goes on. -/
theorem exec_next (i : Instr) (s : State) : ∃ t, exec i s = .next t := by
  by_cases hi : i = .hlt
  · exact hi ▸ ⟨_, exec_hlt s⟩
  · obtain ⟨x, e, _⟩ := exec_concludes hi s
    rw [e]
    cases x <;> exact ⟨_, rfl⟩

/-- Everything an instruction can do outside its registers and flags: it went on, it is HLT, or it is fault entry in
the state it raised in. -/
theorem exec_outcome {i : Instr} {s t : State} (h : exec i s = .next t) :
    (EvolvesTo s t ∧ PcAfter s i.length t.pc) ∨ (i = .hlt ∧ t = advance 1 (s.setRunning false)) ∨
    ∃ r : Raised, EvolvesTo s r.state ∧ r.state.pc = s.pc ∧ t = takeFault r := by
  by_cases hi : i = .hlt
  · subst hi; cases h; exact .inr (.inl ⟨rfl, rfl⟩)
  · obtain ⟨x, e, hx⟩ := exec_concludes hi s
    rw [e] at h
    cases x with
    | ok u => cases h; exact .inl hx
    | error r => cases h; exact .inr (.inr ⟨r, hx.1, hx.2, rfl⟩)

/-! ### What the stores leave -/

theorem read_stores (ws : List Host.Cell) (m : Memory) (a : Nat) (h : ∀ w ∈ ws, w.1 ≠ a) :
    (ws.foldl (fun m w => m.write w.1 w.2) m).read a = m.read a := by
  induction ws generalizing m with
  | nil => rfl
  | cons w ws ih =>
    rw [List.foldl_cons, ih _ fun x hx => h x (by simp [hx]), Memory.read_write_ne]
    exact (h w (by simp)).symm

theorem wf_stores (ws : List Host.Cell) {m : Memory} (h : m.wf = true) :
    (ws.foldl (fun m w => m.write w.1 w.2) m).wf = true := by
  induction ws generalizing m with
  | nil => exact h
  | cons w ws ih => exact ih (Memory.wf_write h w.1 w.2)

theorem within_stores (ws : List Host.Cell) {m : Memory} {top : Nat} (h : m.within top = true)
    (hw : ∀ w ∈ ws, w.1 ≤ top) : (ws.foldl (fun m w => m.write w.1 w.2) m).within top = true := by
  induction ws generalizing m with
  | nil => exact h
  | cons w ws ih => exact ih (Memory.within_write h (hw w (by simp)) w.2) fun x hx => hw x (by simp [hx])

end Sys2Proof.Machine
end

