-- ==== Sys2Proof/Laws/PerInstr.lean ====
section
/-! SUPPORT. Facts about every instruction as syntax, one lemma per constructor. -/

namespace Sys2Proof.Laws.OpcodeLength

/-- Whatever the opcode table, the length of an instruction is a function of its opcode byte alone, and is 1, 2 or 3
(30_encoding.md R100, R103). -/
def Statement (i : Instr) : Prop :=
  (∀ t : OpcodeTable, t.wf = true → opcodeLength t (i.opcode t) = some i.length) ∧ 1 ≤ i.length ∧ i.length ≤ 3

theorem length_bounds (i : Instr) : 1 ≤ i.length ∧ i.length ≤ 3 := by
  cases i <;> simp [Instr.length, Instr.operandBytes]

/-- The instruction of a fixed byte, row `k` of the table. -/
theorem ofRow {i : Instr} {form : Form} (k : Nat) (hr : ∀ t : OpcodeTable, t.rows[k]? = some (i.opcode t, form))
    (hl : form.length = i.length) : Statement i :=
  ⟨fun t ht => (opcodeLength_row ht (List.mem_of_getElem? (hr t))).trans (by rw [hl]), length_bounds i⟩

/-- The instruction of a block byte. -/
theorem ofBlock {i : Instr} (hf : ∀ t : OpcodeTable, t.wf = true → i.opcode t ∉ t.fixedBytes)
    (hv : ∀ t : OpcodeTable, t.wf = true → decodeVariable t (i.opcode t) = some i) (hl : i.length = 1) :
    Statement i :=
  ⟨fun t ht => (opcodeLength_block (hf t ht) (hv t ht)).trans (by rw [hl]), length_bounds i⟩

theorem nop : Statement .nop :=
  ofRow 0 (fun _ => rfl) rfl

theorem hlt : Statement .hlt :=
  ofRow 1 (fun _ => rfl) rfl

theorem mov (dst : Reg8) (src : Reg8) : Statement (.mov dst src) := by
  refine ⟨fun t ht => ?_, length_bounds _⟩
  by_cases h : movByte dst src = t.hlt
  · exact (opcodeLength_row ht (List.mem_of_getElem? (i := 1) (by rw [Instr.opcode, h]; rfl))).trans rfl
  · exact opcodeLength_block (mov_not_fixed ht h) (mov_variable t dst src)

theorem mvi (dst : Reg8) (imm : Byte) : Statement (.mvi dst imm) :=
  ofRow (form := .d8 (.mvi dst)) (9 + dst.num.toNat) (fun _ => by cases dst <;> rfl) rfl

theorem lxiB (imm : Word) : Statement (.lxiB imm) :=
  ofRow 17 (fun _ => rfl) rfl

theorem lxiD (imm : Word) : Statement (.lxiD imm) :=
  ofRow 18 (fun _ => rfl) rfl

theorem lxiH (imm : Word) : Statement (.lxiH imm) :=
  ofRow 19 (fun _ => rfl) rfl

theorem staxB : Statement .staxB :=
  ofRow 20 (fun _ => rfl) rfl

theorem ldaxB : Statement .ldaxB :=
  ofRow 22 (fun _ => rfl) rfl

theorem staxD : Statement .staxD :=
  ofRow 21 (fun _ => rfl) rfl

theorem ldaxD : Statement .ldaxD :=
  ofRow 23 (fun _ => rfl) rfl

theorem rlc : Statement .rlc :=
  ofRow 2 (fun _ => rfl) rfl

theorem rrc : Statement .rrc :=
  ofRow 3 (fun _ => rfl) rfl

theorem ral : Statement .ral :=
  ofRow 4 (fun _ => rfl) rfl

theorem rar : Statement .rar :=
  ofRow 5 (fun _ => rfl) rfl

theorem stc : Statement .stc :=
  ofRow 6 (fun _ => rfl) rfl

theorem sta (addr : Word) : Statement (.sta addr) :=
  ofRow 7 (fun _ => rfl) rfl

theorem lda (addr : Word) : Statement (.lda addr) :=
  ofRow 8 (fun _ => rfl) rfl

theorem add (src : Reg8) : Statement (.add src) :=
  ofBlock (fun _ ht => by
      cases src <;> exact arithmetic_not_fixed ht (Nat.le_of_ble_eq_true rfl) (Nat.le_of_ble_eq_true rfl))
    (fun t _ => (arithmetic_variable t src).1) rfl

theorem adc (src : Reg8) : Statement (.adc src) :=
  ofBlock (fun _ ht => by
      cases src <;> exact arithmetic_not_fixed ht (Nat.le_of_ble_eq_true rfl) (Nat.le_of_ble_eq_true rfl))
    (fun t _ => (arithmetic_variable t src).2.1) rfl

theorem sub (src : Reg8) : Statement (.sub src) :=
  ofBlock (fun _ ht => by
      cases src <;> exact arithmetic_not_fixed ht (Nat.le_of_ble_eq_true rfl) (Nat.le_of_ble_eq_true rfl))
    (fun t _ => (arithmetic_variable t src).2.2.1) rfl

theorem sbb (src : Reg8) : Statement (.sbb src) :=
  ofBlock (fun _ ht => by
      cases src <;> exact arithmetic_not_fixed ht (Nat.le_of_ble_eq_true rfl) (Nat.le_of_ble_eq_true rfl))
    (fun t _ => (arithmetic_variable t src).2.2.2) rfl

theorem ana (src : Reg8) : Statement (.ana src) :=
  ofBlock (fun _ ht => logic_not_fixed ht (List.mem_of_getElem? (i := 0) rfl) src.num)
    (fun _ ht => (logic_variable ht src).1) rfl

theorem xra (src : Reg8) : Statement (.xra src) :=
  ofBlock (fun _ ht => logic_not_fixed ht (List.mem_of_getElem? (i := 1) rfl) src.num)
    (fun _ ht => (logic_variable ht src).2.1) rfl

theorem ora (src : Reg8) : Statement (.ora src) :=
  ofBlock (fun _ ht => logic_not_fixed ht (List.mem_of_getElem? (i := 2) rfl) src.num)
    (fun _ ht => (logic_variable ht src).2.2.1) rfl

theorem cmp (src : Reg8) : Statement (.cmp src) :=
  ofBlock (fun _ ht => logic_not_fixed ht (List.mem_of_getElem? (i := 3) rfl) src.num)
    (fun _ ht => (logic_variable ht src).2.2.2) rfl

theorem adi (imm : Byte) : Statement (.adi imm) :=
  ofRow 30 (fun _ => rfl) rfl

theorem aci (imm : Byte) : Statement (.aci imm) :=
  ofRow 31 (fun _ => rfl) rfl

theorem sui (imm : Byte) : Statement (.sui imm) :=
  ofRow 32 (fun _ => rfl) rfl

theorem sbi (imm : Byte) : Statement (.sbi imm) :=
  ofRow 33 (fun _ => rfl) rfl

theorem ani (imm : Byte) : Statement (.ani imm) :=
  ofRow 34 (fun _ => rfl) rfl

theorem xri (imm : Byte) : Statement (.xri imm) :=
  ofRow 35 (fun _ => rfl) rfl

theorem ori (imm : Byte) : Statement (.ori imm) :=
  ofRow 36 (fun _ => rfl) rfl

theorem cpi (imm : Byte) : Statement (.cpi imm) :=
  ofRow 37 (fun _ => rfl) rfl

theorem jmp (addr : Word) : Statement (.jmp addr) :=
  ofRow 38 (fun _ => rfl) rfl

theorem jnz (addr : Word) : Statement (.jnz addr) :=
  ofRow 39 (fun _ => rfl) rfl

theorem jz (addr : Word) : Statement (.jz addr) :=
  ofRow 40 (fun _ => rfl) rfl

theorem jnc (addr : Word) : Statement (.jnc addr) :=
  ofRow 41 (fun _ => rfl) rfl

theorem jc (addr : Word) : Statement (.jc addr) :=
  ofRow 42 (fun _ => rfl) rfl

theorem jpo (addr : Word) : Statement (.jpo addr) :=
  ofRow 43 (fun _ => rfl) rfl

theorem jpe (addr : Word) : Statement (.jpe addr) :=
  ofRow 44 (fun _ => rfl) rfl

theorem jp (addr : Word) : Statement (.jp addr) :=
  ofRow 45 (fun _ => rfl) rfl

theorem jm (addr : Word) : Statement (.jm addr) :=
  ofRow 46 (fun _ => rfl) rfl

theorem call (addr : Word) : Statement (.call addr) :=
  ofRow 47 (fun _ => rfl) rfl

theorem cnz (addr : Word) : Statement (.cnz addr) :=
  ofRow 48 (fun _ => rfl) rfl

theorem cz (addr : Word) : Statement (.cz addr) :=
  ofRow 49 (fun _ => rfl) rfl

theorem cnc (addr : Word) : Statement (.cnc addr) :=
  ofRow 50 (fun _ => rfl) rfl

theorem cc (addr : Word) : Statement (.cc addr) :=
  ofRow 51 (fun _ => rfl) rfl

theorem cpo (addr : Word) : Statement (.cpo addr) :=
  ofRow 52 (fun _ => rfl) rfl

theorem cpe (addr : Word) : Statement (.cpe addr) :=
  ofRow 53 (fun _ => rfl) rfl

theorem cp (addr : Word) : Statement (.cp addr) :=
  ofRow 54 (fun _ => rfl) rfl

theorem cm (addr : Word) : Statement (.cm addr) :=
  ofRow 55 (fun _ => rfl) rfl

theorem ret : Statement .ret :=
  ofRow 56 (fun _ => rfl) rfl

theorem rnz : Statement .rnz :=
  ofRow 57 (fun _ => rfl) rfl

theorem rz : Statement .rz :=
  ofRow 58 (fun _ => rfl) rfl

theorem rnc : Statement .rnc :=
  ofRow 59 (fun _ => rfl) rfl

theorem rc : Statement .rc :=
  ofRow 60 (fun _ => rfl) rfl

theorem rpo : Statement .rpo :=
  ofRow 61 (fun _ => rfl) rfl

theorem rpe : Statement .rpe :=
  ofRow 62 (fun _ => rfl) rfl

theorem rp : Statement .rp :=
  ofRow 63 (fun _ => rfl) rfl

theorem rm : Statement .rm :=
  ofRow 64 (fun _ => rfl) rfl

theorem pushB : Statement .pushB :=
  ofRow 24 (fun _ => rfl) rfl

theorem popB : Statement .popB :=
  ofRow 27 (fun _ => rfl) rfl

theorem pushD : Statement .pushD :=
  ofRow 25 (fun _ => rfl) rfl

theorem popD : Statement .popD :=
  ofRow 28 (fun _ => rfl) rfl

theorem pushH : Statement .pushH :=
  ofRow 26 (fun _ => rfl) rfl

theorem popH : Statement .popH :=
  ofRow 29 (fun _ => rfl) rfl

end Sys2Proof.Laws.OpcodeLength
end

