-- ==== Sys2Proof/Laws/Step.lean ====
section
/-! SUPPORT. Everything a fetch and a step can do, said once (70_reset_and_hazards.md R336). -/

namespace Sys2Proof.Machine

theorem fetch_raisesHere (s : State) : RaisesHere s (fetch s) := by
  intro r h
  unfold fetch at h
  rcases attempt_bind_eq_error.1 h with h | ⟨op, _, h⟩
  · exact memRead_raisesHere _ s r h
  · split at h
    · cases h; rfl
    · next form _ =>
      cases form with
      | op i => cases h
      | d8 f =>
        rcases attempt_bind_eq_error.1 h with h | ⟨_, _, h⟩
        · exact memRead_raisesHere _ s r h
        · cases h
      | d16 f =>
        rcases attempt_bind_eq_error.1 h with h | ⟨_, _, h⟩
        · exact memRead16_raisesHere _ s r h
        · cases h

theorem fetch_opcode {s : State} (h : s.readable s.pc) :
    fetch s = match decodeOpcode s.cfg.opc (s.mem.read s.pc) with
      | none => .error ⟨.unrecognizedOpcode (s.mem.read s.pc) s.pc, s⟩
      | some form => fetchOperands form s := by
  unfold fetch
  rw [memRead_ok h, attempt_bind_ok]
  split <;> simp_all

/-- Everything a step can do, when it goes on. -/
theorem step_cases {s t : State} (h : step s = .next t) :
    s.cfg.wf = true ∧
    ((s.fault.isSome = true ∧ t = s) ∨
     (s.fault = none ∧ s.cfg.totalSize ≤ s.pc ∧ t = s.setRunning false) ∨
     (s.fault = none ∧ s.pc < s.cfg.totalSize ∧ ∃ r, fetch s = .error ⟨r, s⟩ ∧ t = takeFault ⟨r, s⟩) ∨
     (s.fault = none ∧ s.pc < s.cfg.totalSize ∧ ∃ i u, fetch s = .ok i ∧ exec i s = .next u ∧ t = stopAtEnd u)) := by
  unfold step at h
  split at h
  case isFalse => cases h
  case isTrue hc =>
    refine ⟨hc, ?_⟩
    split at h
    case h_1 r hf => cases h; exact .inl ⟨by simp [hf], rfl⟩
    case h_2 hf =>
      split at h
      case isTrue hp => cases h; exact .inr (.inl ⟨hf, hp, rfl⟩)
      case isFalse hp =>
        have hp := Nat.lt_of_not_le hp
        split at h
        case h_1 i hi =>
          refine .inr (.inr (.inr ⟨hf, hp, ?_⟩))
          cases he : exec i s with
          | next u => rw [he] at h; cases h; exact ⟨i, u, hi, he, rfl⟩
          | fault r => rw [he] at h; cases h
          | refused r => rw [he] at h; cases h
        case h_2 r hr =>
          cases h
          have := fetch_raisesHere s r hr
          obtain ⟨rec, st⟩ := r
          subst this
          exact .inr (.inr (.inl ⟨hf, hp, rec, hr, rfl⟩))

/-- A step outside a latched fault that fetches an instruction is that instruction and the end-of-memory test. -/
theorem step_of_fetch {s : State} {i : Instr} (hc : s.cfg.wf = true) (hf : s.fault = none)
    (hp : s.pc < s.cfg.totalSize) (hi : fetch s = .ok i) : step s = settle (exec i s) := by
  unfold step
  simp [hc, hf, Nat.not_le.2 hp, hi]

end Sys2Proof.Machine
end

