-- ==== Sys2Proof/Tests/Slice0.lean ====
section
/-! SUPPORT. The model's own tests. Expected results are 95_test_vectors.md's ("vector" and the case's name), or are
worked out by hand from the rule named. The last part holds one witness per statement with hypotheses. -/

namespace Sys2Proof.Tests

open Sys2Proof Sys2Proof.Machine

/-! ### Well-formedness and decoding -/

/-- 30_encoding.md R111: with HLT at 0x76 there is no MOV M,M. -/
theorem test_mov_m_m_is_no_instruction : (Instr.mov .m .m).wf .intel8080 = false := by decide

theorem test_mov_to_and_from_m_are_instructions :
    (Instr.mov .m .a).wf .intel8080 = true ∧ (Instr.mov .a .m).wf .intel8080 = true := by decide

/-- R8, R107, R108: a table that moves HLT is one; a byte given twice, a fixed byte in `add` or in a logic block, a
fixed byte other than HLT in `mov`, a logic block on `sub` and two logic blocks in one place are refused. -/
theorem test_opcode_tables :
    let t := OpcodeTable.intel8080
    t.wf = true ∧ { t with hlt := 0x40 }.wf = true ∧ { t with nop := 0x07 }.wf = false ∧ { t with nop := 0x80 }.wf = false ∧
    { t with nop := 0xA3 }.wf = false ∧ { t with nop := 0x40 }.wf = false ∧ { t with ana := 0b10010#5 }.wf = false ∧
    { t with ana := t.cmp }.wf = false := by
  decide

/-- A corrected byte touches one table (R108): with HLT at 0x08, that byte halts and 0x76 is MOV M,M (R111). -/
theorem test_moved_hlt :
    let t := { OpcodeTable.intel8080 with hlt := 0x08 }
    t.wf = true ∧ decode t [0x08] = .ok (.hlt, []) ∧ decode t [0x76] = .ok (.mov .m .m, []) ∧
    (Instr.mov .m .m).wf t = true := ⟨by decide, rfl, rfl, by decide⟩

/-- The bytes decode to the instruction, all of them used. -/
def decodesTo (bytes : List Byte) (i : Instr) : Bool :=
  match decode .intel8080 bytes with
  | .ok (j, []) => decide (j = i)
  | _ => false

/-- Words written out from R150: `01 ddd sss`; the byte 0x76 between them is HLT (R111). -/
theorem test_decode_mov :
    (decodesTo [0b01111000] (.mov .a .b) &&
      decodesTo [0b01110111] (.mov .m .a) &&
      decodesTo [0b01101110] (.mov .l .m) &&
      decodesTo [0b01010011] (.mov .d .e) &&
      decodesTo [0b01001100] (.mov .c .h) &&
      decodesTo [0b01110110] .hlt) = true := by
  decide

/-- Words written out from R151: `00 ddd 110`, the byte. -/
theorem test_decode_mvi :
    (decodesTo [0b00000110, 0x12] (.mvi .b 0x12) &&
      decodesTo [0b00110110, 0xAB] (.mvi .m 0xAB) &&
      decodesTo [0b00111110, 0xFF] (.mvi .a 0xFF)) = true := by
  decide

/-- Words written out from R152: `00 rp 0001`, low byte, high byte. -/
theorem test_decode_lxi :
    (decodesTo [0b00000001, 0x34, 0x12] (.lxiB 0x1234) &&
      decodesTo [0b00010001, 0xFF, 0x00] (.lxiD 0x00FF) &&
      decodesTo [0b00100001, 0x00, 0x80] (.lxiH 0x8000)) = true := by
  decide

/-- Words written out from R153 to R156. -/
theorem test_decode_loads_and_stores_of_a :
    (decodesTo [0b00111010, 0x00, 0x30] (.lda 0x3000) &&
      decodesTo [0b00110010, 0xFF, 0x0F] (.sta 0x0FFF) &&
      decodesTo [0b00001010] .ldaxB &&
      decodesTo [0b00011010] .ldaxD &&
      decodesTo [0b00000010] .staxB &&
      decodesTo [0b00010010] .staxD) = true := by
  decide

/-- Words written out from R173 to R176: `10 fff sss`. -/
theorem test_decode_register_arithmetic :
    (decodesTo [0b10000000] (.add .b) &&
      decodesTo [0b10001001] (.adc .c) &&
      decodesTo [0b10010110] (.sub .m) &&
      decodesTo [0b10011111] (.sbb .a)) = true := by
  decide

/-- Words written out from R192 to R195: `10 1ff sss`. -/
theorem test_decode_register_logic :
    (decodesTo [0b10100010] (.ana .d) &&
      decodesTo [0b10101011] (.xra .e) &&
      decodesTo [0b10110100] (.ora .h) &&
      decodesTo [0b10111101] (.cmp .l)) = true := by
  decide

/-- Words written out from R177 to R180, R196 to R199: `11 fff 110`, the byte. -/
theorem test_decode_immediates :
    (decodesTo [0b11000110, 0x0F] (.adi 0x0F) &&
      decodesTo [0b11001110, 0x0F] (.aci 0x0F) &&
      decodesTo [0b11010110, 0x0F] (.sui 0x0F) &&
      decodesTo [0b11011110, 0x0F] (.sbi 0x0F) &&
      decodesTo [0b11100110, 0x0F] (.ani 0x0F) &&
      decodesTo [0b11101110, 0x0F] (.xri 0x0F) &&
      decodesTo [0b11110110, 0x0F] (.ori 0x0F) &&
      decodesTo [0b11111110, 0x0F] (.cpi 0x0F)) = true := by
  decide

/-- Words written out from R208 to R212. -/
theorem test_decode_rotates_and_carry :
    (decodesTo [0b00000111] .rlc &&
      decodesTo [0b00001111] .rrc &&
      decodesTo [0b00010111] .ral &&
      decodesTo [0b00011111] .rar &&
      decodesTo [0b00110111] .stc) = true := by
  decide

/-- Words written out from R221 to R229: `11 ccc 010`, low byte, high byte. -/
theorem test_decode_jumps :
    (decodesTo [0b11000011, 0x34, 0x12] (.jmp 0x1234) &&
      decodesTo [0b11000010, 0x34, 0x12] (.jnz 0x1234) &&
      decodesTo [0b11001010, 0x34, 0x12] (.jz 0x1234) &&
      decodesTo [0b11010010, 0x34, 0x12] (.jnc 0x1234) &&
      decodesTo [0b11011010, 0x34, 0x12] (.jc 0x1234) &&
      decodesTo [0b11100010, 0x34, 0x12] (.jpo 0x1234) &&
      decodesTo [0b11101010, 0x34, 0x12] (.jpe 0x1234) &&
      decodesTo [0b11110010, 0x34, 0x12] (.jp 0x1234) &&
      decodesTo [0b11111010, 0x34, 0x12] (.jm 0x1234)) = true := by
  decide

/-- Words written out from R231 to R239: `11 ccc 100`, low byte, high byte. -/
theorem test_decode_calls :
    (decodesTo [0b11001101, 0x00, 0x01] (.call 0x0100) &&
      decodesTo [0b11000100, 0x00, 0x01] (.cnz 0x0100) &&
      decodesTo [0b11001100, 0x00, 0x01] (.cz 0x0100) &&
      decodesTo [0b11010100, 0x00, 0x01] (.cnc 0x0100) &&
      decodesTo [0b11011100, 0x00, 0x01] (.cc 0x0100) &&
      decodesTo [0b11100100, 0x00, 0x01] (.cpo 0x0100) &&
      decodesTo [0b11101100, 0x00, 0x01] (.cpe 0x0100) &&
      decodesTo [0b11110100, 0x00, 0x01] (.cp 0x0100) &&
      decodesTo [0b11111100, 0x00, 0x01] (.cm 0x0100)) = true := by
  decide

/-- Words written out from R241 to R249: `11 ccc 000`. -/
theorem test_decode_returns :
    (decodesTo [0b11001001] .ret &&
      decodesTo [0b11000000] .rnz &&
      decodesTo [0b11001000] .rz &&
      decodesTo [0b11010000] .rnc &&
      decodesTo [0b11011000] .rc &&
      decodesTo [0b11100000] .rpo &&
      decodesTo [0b11101000] .rpe &&
      decodesTo [0b11110000] .rp &&
      decodesTo [0b11111000] .rm) = true := by
  decide

/-- Words written out from R262, R263, R266, R267: `11 rp 0101`, `11 rp 0001`. -/
theorem test_decode_stack_and_control :
    (decodesTo [0b11000101] .pushB &&
      decodesTo [0b11010101] .pushD &&
      decodesTo [0b11100101] .pushH &&
      decodesTo [0b11000001] .popB &&
      decodesTo [0b11010001] .popD &&
      decodesTo [0b11100001] .popH &&
      decodesTo [0b00000000] .nop &&
      decodesTo [0b01110110] .hlt) = true := by
  decide

/-- The numbering of the opcode table: the first byte is bits 7..0 (LXI H, 0x1234 of R152), and bits above `nbits` are 0. -/
theorem test_table_word : decodeTableWord 24 0x123421 = some (.lxiH 0x1234) ∧ decodeTableWord 8 0xFF2178 = some (.mov .a .b) ∧
    decodeTableWord 8 0x04 = none := by decide

/-! ### One step -/

/-- The state after a step with the bytes placed at `pc`. -/
def after (s : State) (bytes : List Byte) : Option State :=
  match step (placeAtPc s bytes) with
  | .next t => some t
  | _ => none

/-- A state of the vectors with A and B, flags S Z Ac P 1 1 1 1 and the given Carry. -/
def withAB (a b : Byte) (cy : Bool) : State :=
  { State.reset with regs := { Regs.zero with a := a, b := b }, flags := ⟨true, true, true, true, cy⟩ }

/-- A state of the vectors with the given HL and A. -/
def withHL (h l a : Byte) : State := { State.reset with regs := { Regs.zero with h := h, l := l, a := a } }

/-- The memory with SP at `sp` and some further cells. -/
def memSp (sp : Word) (cells : List Host.Cell) : Memory :=
  ((cells.foldl (fun m c => m.write c.1 c.2) Memory.cleared).write 0xFFF0 (lo8 sp)).write 0xFFF1 (hi8 sp)

/-- A state of the vectors with SP, cells, flags and `pc`. -/
def withStack (sp : Word) (cells : List Host.Cell) (f : Flags) (pc : Nat) : State :=
  { State.reset with mem := memSp sp cells, flags := f, pc := pc, regs := ⟨0xA5, 0x12, 0x34, 0xAB, 0xCD, 0x20, 0x10⟩ }

/-- A state with CFG_S, the small memory. -/
def small (pc : Nat) : State := { State.reset with cfg := Config.cfgS, mem := [(0xF0, 0xDF)], pc := pc }

/-- `pc`, A and the flags S Z Ac P C. -/
def seeA (t : State) : Nat × Byte × Flags := (t.pc, t.regs.a, t.flags)

/-- Vector 2.2. -/
theorem test_add :
    (after (withAB 0xFF 0x01 false) [0x80]).map seeA = some (1, 0x00, ⟨false, true, false, true, true⟩) ∧
    (after (withAB 0x09 0x01 false) [0x80]).map seeA = some (1, 0x0A, ⟨false, false, true, true, false⟩) := by
  decide

/-- Vector 2.2. -/
theorem test_adc :
    (after (withAB 0xFF 0xFF true) [0x88]).map seeA = some (1, 0xFF, ⟨true, false, true, true, true⟩) ∧
    (after (withAB 0x0A 0x01 true) [0x88]).map seeA = some (1, 0x0C, ⟨false, false, true, true, false⟩) := by
  decide

/-- Vector 2.2. -/
theorem test_sub :
    (after (withAB 0x00 0x01 false) [0x90]).map seeA = some (1, 0xFF, ⟨true, false, true, true, true⟩) ∧
    (after (withAB 0x3C 0xF0 true) [0x90]).map seeA = some (1, 0x4C, ⟨false, false, true, false, true⟩) := by
  decide

/-- Vector 2.2. -/
theorem test_sbb :
    (after (withAB 0xFF 0xFF true) [0x98]).map seeA = some (1, 0xFF, ⟨true, false, true, true, true⟩) ∧
    (after (withAB 0x00 0xFF true) [0x98]).map seeA = some (1, 0x00, ⟨false, true, false, true, true⟩) := by
  decide

/-- Vector 2.2. -/
theorem test_ana :
    (after (withAB 0x3C 0xF0 true) [0xA0]).map seeA = some (1, 0x30, ⟨false, false, true, true, false⟩) ∧
    (after (withAB 0x7F 0x01 false) [0xA0]).map seeA = some (1, 0x01, ⟨false, false, false, false, false⟩) := by
  decide

/-- Vector 2.2. -/
theorem test_xra :
    (after (withAB 0x3C 0xF0 true) [0xA8]).map seeA = some (1, 0xCC, ⟨true, false, true, true, false⟩) ∧
    (after (withAB 0xFF 0xFF true) [0xA8]).map seeA = some (1, 0x00, ⟨false, true, false, true, false⟩) := by
  decide

/-- Vector 2.2. -/
theorem test_ora :
    (after (withAB 0x3C 0xF0 true) [0xB0]).map seeA = some (1, 0xFC, ⟨true, false, true, true, false⟩) ∧
    (after (withAB 0x00 0x01 false) [0xB0]).map seeA = some (1, 0x01, ⟨false, false, false, false, false⟩) := by
  decide

/-- Vector 2.2. -/
theorem test_cmp :
    (after (withAB 0x00 0xFF true) [0xB8]).map seeA = some (1, 0x00, ⟨false, false, true, false, true⟩) ∧
    (after (withAB 0x80 0x80 false) [0xB8]).map seeA = some (1, 0x80, ⟨false, true, true, true, false⟩) := by
  decide

/-- Vector 2.3, ADD M and CMP M. -/
theorem test_alu_m_operand :
    (after { withHL 0x20 0x00 0x90 with mem := memSp 0xF7FF [(0x2000, 0x91)], flags := ⟨false, false, false, false, true⟩ }
      [0x86]).map seeA = some (1, 0x21, ⟨false, false, true, true, true⟩) ∧
    (after { withHL 0x20 0x00 0x90 with mem := memSp 0xF7FF [(0x2000, 0x91)], flags := ⟨false, false, false, false, true⟩ }
      [0xBE]).map seeA = some (1, 0x90, ⟨true, false, false, true, true⟩) := by
  decide

/-- Vector 2.4. -/
theorem test_adi : (after { withHL 0 0 0xF8 with flags := ⟨false, false, false, false, true⟩ } [0xC6, 0x0F]).map seeA =
    some (2, 0x07, ⟨false, false, false, false, true⟩) := by decide

/-- Vector 2.4. -/
theorem test_aci : (after { withHL 0 0 0xF8 with flags := ⟨false, false, false, false, true⟩ } [0xCE, 0x0F]).map seeA =
    some (2, 0x08, ⟨false, false, false, false, true⟩) := by decide

/-- Vector 2.4. -/
theorem test_sui : (after { withHL 0 0 0xF8 with flags := ⟨false, false, false, false, true⟩ } [0xD6, 0x0F]).map seeA =
    some (2, 0xE9, ⟨true, false, true, false, false⟩) := by decide

/-- Vector 2.4. -/
theorem test_sbi : (after { withHL 0 0 0xF8 with flags := ⟨false, false, false, false, true⟩ } [0xDE, 0x0F]).map seeA =
    some (2, 0xE8, ⟨true, false, true, true, false⟩) := by decide

/-- Vector 2.4. -/
theorem test_ani : (after { withHL 0 0 0xF8 with flags := ⟨false, false, false, false, true⟩ } [0xE6, 0x0F]).map seeA =
    some (2, 0x08, ⟨false, false, false, false, false⟩) := by decide

/-- Vector 2.4. -/
theorem test_xri : (after { withHL 0 0 0xF8 with flags := ⟨false, false, false, false, true⟩ } [0xEE, 0x0F]).map seeA =
    some (2, 0xF7, ⟨true, false, true, false, false⟩) := by decide

/-- Vector 2.4. -/
theorem test_ori : (after { withHL 0 0 0xF8 with flags := ⟨false, false, false, false, true⟩ } [0xF6, 0x0F]).map seeA =
    some (2, 0xFF, ⟨true, false, true, true, false⟩) := by decide

/-- Vector 2.4. -/
theorem test_cpi : (after { withHL 0 0 0xF8 with flags := ⟨false, false, false, false, true⟩ } [0xFE, 0x0F]).map seeA =
    some (2, 0xF8, ⟨true, false, false, false, false⟩) := by decide

/-- Vector 2.5. S, Z, Ac and P stay 1. -/
theorem test_rlc :
    (after (withAB 0x81 0 true) [0x07]).map seeA = some (1, 0x03, ⟨true, true, true, true, true⟩) ∧
    (after (withAB 0x80 0 false) [0x07]).map seeA = some (1, 0x01, ⟨true, true, true, true, true⟩) := by
  decide

/-- Vector 2.5. S, Z, Ac and P stay 1. -/
theorem test_rrc :
    (after (withAB 0x81 0 true) [0x0F]).map seeA = some (1, 0xC0, ⟨true, true, true, true, true⟩) ∧
    (after (withAB 0x80 0 false) [0x0F]).map seeA = some (1, 0x40, ⟨true, true, true, true, false⟩) := by
  decide

/-- Vector 2.5. S, Z, Ac and P stay 1. -/
theorem test_ral :
    (after (withAB 0x81 0 false) [0x17]).map seeA = some (1, 0x02, ⟨true, true, true, true, true⟩) ∧
    (after (withAB 0x7E 0 true) [0x17]).map seeA = some (1, 0xFD, ⟨true, true, true, true, false⟩) := by
  decide

/-- Vector 2.5. S, Z, Ac and P stay 1. -/
theorem test_rar :
    (after (withAB 0x81 0 false) [0x1F]).map seeA = some (1, 0x40, ⟨true, true, true, true, true⟩) ∧
    (after (withAB 0x7E 0 true) [0x1F]).map seeA = some (1, 0xBF, ⟨true, true, true, true, false⟩) := by
  decide

/-- Vector 2.5. S, Z, Ac and P stay 1. -/
theorem test_stc :
    (after (withAB 0x5A 0 false) [0x37]).map seeA = some (1, 0x5A, ⟨true, true, true, true, true⟩) := by
  decide

/-- Vectors MOV B,A; MOV L,M (the address comes from the old L). -/
theorem test_mov_register :
    (after (withHL 0 0 0x5A) [0x47]).map (fun t => (t.pc, t.regs.b)) = some (1, 0x5A) ∧
    (after { withHL 0x20 0x10 0 with mem := memSp 0xF7FF [(0x2010, 0x33)] } [0x6E]).map (fun t => (t.pc, t.regs.l)) =
      some (1, 0x33) := by
  decide

/-- Vectors MOV M,A to ROM; last port; just after the port row. -/
theorem test_mov_memory :
    (after (withHL 0x0F 0xFF 0x01) [0x77]).map (fun t => (t.pc, t.running, t.fault, t.mem.read 0x0FFF)) =
      some (0, false, some (.protectedMemoryWrite 0x0FFF), 0x00) ∧
    (after (withHL 0xFF 0x0F 0x80) [0x77]).map (fun t => (t.pc, t.mem.read 0xFF0F, t.ports)) =
      some (1, 0x80, [⟨0x0F, 0x80⟩]) ∧
    (after (withHL 0xFF 0x10 0x80) [0x77]).map (fun t => (t.mem.read 0xFF10, t.ports)) = some (0x80, []) := by
  decide

/-- Vectors MVI C; MVI M; MVI M to ROM. -/
theorem test_mvi :
    (after State.reset [0x0E, 0x7F]).map (fun t => (t.pc, t.regs.c)) = some (2, 0x7F) ∧
    (after (withHL 0x30 0x00 0) [0x36, 0xAB]).map (fun t => (t.pc, t.mem.read 0x3000)) = some (2, 0xAB) ∧
    (after (withHL 0x00 0x05 0) [0x36, 0xAB]).map (fun t => (t.pc, t.fault)) =
      some (0, some (.protectedMemoryWrite 5)) := by
  decide

/-- Vectors LXI B, LXI D, LXI H. -/
theorem test_lxi :
    (after State.reset [0x01, 0x34, 0x12]).map (fun t => (t.pc, t.regs.b, t.regs.c)) = some (3, 0x12, 0x34) ∧
    (after State.reset [0x11, 0xFF, 0x00]).map (fun t => (t.pc, t.regs.d, t.regs.e)) = some (3, 0x00, 0xFF) ∧
    (after State.reset [0x21, 0x00, 0x80]).map (fun t => (t.pc, t.regs.h, t.regs.l)) = some (3, 0x80, 0x00) := by
  decide

/-- Vectors LDA from ROM; LDA above memory (CFG_S). -/
theorem test_lda :
    (after State.reset [0x3A, 0x00, 0x00]).map (fun t => (t.pc, t.regs.a)) = some (3, 0x3A) ∧
    (after (small 0) [0x3A, 0x00, 0x01]).map (fun t => (t.pc, t.fault)) = some (0, some (.memoryRange 0x100)) := by
  decide

/-- Vectors STA to the low SP cell; STA to port 3 of the value already there. -/
theorem test_sta :
    (after (withHL 0 0 0) [0x32, 0xF0, 0xFF]).map (fun t => (t.pc, t.sp)) = some (3, 0xF700) ∧
    (after (withHL 0 0 0) [0x32, 0x03, 0xFF]).map (fun t => (t.mem.read 0xFF03, t.ports)) = some (0, [⟨3, 0⟩]) := by
  decide

/-- Vectors LDAX B, LDAX D. -/
theorem test_ldax :
    (after { State.reset with regs := { Regs.zero with b := 0x30, c := 0x01 }, mem := memSp 0xF7FF [(0x3001, 0xEE)] }
      [0x0A]).map (fun t => (t.pc, t.regs.a)) = some (1, 0xEE) ∧
    (after State.reset [0x1A]).map (fun t => (t.pc, t.regs.a)) = some (1, 0x1A) := by
  decide

/-- Vectors STAX B, STAX D into ROM. -/
theorem test_stax :
    (after { State.reset with regs := { Regs.zero with a := 0x21, b := 0x30, c := 0x01 } } [0x02]).map
      (fun t => (t.pc, t.mem.read 0x3001)) = some (1, 0x21) ∧
    (after { State.reset with regs := { Regs.zero with a := 0x21, e := 0x10 } } [0x12]).map (fun t => (t.pc, t.fault)) =
      some (0, some (.protectedMemoryWrite 0x10)) := by
  decide

/-- Where a jump with the given flags goes. -/
def goesTo (op : Byte) (f : Flags) : Option Nat :=
  (after { State.reset with flags := f } [op, 0x34, 0x12]).map (·.pc)

/-- Vectors 2.7: JMP; JMP to total_size stops. -/
theorem test_jmp :
    goesTo 0xC3 Flags.clear = some 0x1234 ∧
    (after { State.reset with running := true } [0xC3, 0xFF, 0xFF]).map (fun t => (t.pc, t.running, t.fault)) =
      some (0xFFFF, false, none) := by
  decide

/-- Vector 2.7, with only this flag set and with only this flag clear. -/
theorem test_jnz : goesTo 0xC2 ⟨false, true, false, false, false⟩ = some 0x0003 ∧
    goesTo 0xC2 ⟨true, false, true, true, true⟩ = some 0x1234 := by decide

/-- Vector 2.7, with only this flag set and with only this flag clear. -/
theorem test_jz : goesTo 0xCA ⟨false, true, false, false, false⟩ = some 0x1234 ∧
    goesTo 0xCA ⟨true, false, true, true, true⟩ = some 0x0003 := by decide

/-- Vector 2.7, with only this flag set and with only this flag clear. -/
theorem test_jnc : goesTo 0xD2 ⟨false, false, false, false, true⟩ = some 0x0003 ∧
    goesTo 0xD2 ⟨true, true, true, true, false⟩ = some 0x1234 := by decide

/-- Vector 2.7, with only this flag set and with only this flag clear. -/
theorem test_jc : goesTo 0xDA ⟨false, false, false, false, true⟩ = some 0x1234 ∧
    goesTo 0xDA ⟨true, true, true, true, false⟩ = some 0x0003 := by decide

/-- Vector 2.7, with only this flag set and with only this flag clear. -/
theorem test_jpo : goesTo 0xE2 ⟨false, false, false, true, false⟩ = some 0x0003 ∧
    goesTo 0xE2 ⟨true, true, true, false, true⟩ = some 0x1234 := by decide

/-- Vector 2.7, with only this flag set and with only this flag clear. -/
theorem test_jpe : goesTo 0xEA ⟨false, false, false, true, false⟩ = some 0x1234 ∧
    goesTo 0xEA ⟨true, true, true, false, true⟩ = some 0x0003 := by decide

/-- Vector 2.7, with only this flag set and with only this flag clear. -/
theorem test_jp : goesTo 0xF2 ⟨true, false, false, false, false⟩ = some 0x0003 ∧
    goesTo 0xF2 ⟨false, true, true, true, true⟩ = some 0x1234 := by decide

/-- Vector 2.7, with only this flag set and with only this flag clear. -/
theorem test_jm : goesTo 0xFA ⟨true, false, false, false, false⟩ = some 0x1234 ∧
    goesTo 0xFA ⟨false, true, true, true, true⟩ = some 0x0003 := by decide

/-- What a stack test looks at. -/
structure StackView where
  pc : Nat
  sp : Word
  /-- The bytes at 0x9000 and 0x8FFF. -/
  high : Byte
  low : Byte
  fault : Option FaultRecord
deriving DecidableEq

/-- `pc`, SP, the two bytes at 0x9000 and 0x8FFF, and the fault. -/
def seeStack (t : State) : StackView := ⟨t.pc, t.sp, t.mem.read 0x9000, t.mem.read 0x8FFF, t.fault⟩

/-- Vectors CALL; CALL straddling the ROM boundary. -/
theorem test_call :
    (after (withStack 0x9000 [] Flags.clear 0x0234) [0xCD, 0x00, 0x01]).map seeStack =
      some ⟨0x0100, 0x8FFE, 0x02, 0x37, none⟩ ∧
    (after (withStack 0x1000 [] Flags.clear 0x0234) [0xCD, 0x00, 0x01]).map
        (fun t => (t.pc, t.sp, t.mem.read 0x1000, t.fault)) =
      some (0x0234, 0x1000, 0x02, some (.protectedMemoryWrite 0x0FFF)) := by
  decide

/-- Vectors 2.7, CALL at 0010 taken and not taken (R232). -/
theorem test_cnz :
    (after (withStack 0x9000 [] ⟨false, true, false, false, false⟩ 0x0010) [0xC4, 0x00, 0x01]).map seeStack = some ⟨0x0013, 0x9000, 0x00, 0x00, none⟩ ∧
    (after (withStack 0x9000 [] ⟨true, false, true, true, true⟩ 0x0010) [0xC4, 0x00, 0x01]).map seeStack = some ⟨0x0100, 0x8FFE, 0x00, 0x13, none⟩ := by
  decide

/-- Vectors 2.7, CALL at 0010 taken and not taken (R233). -/
theorem test_cz :
    (after (withStack 0x9000 [] ⟨false, true, false, false, false⟩ 0x0010) [0xCC, 0x00, 0x01]).map seeStack = some ⟨0x0100, 0x8FFE, 0x00, 0x13, none⟩ ∧
    (after (withStack 0x9000 [] ⟨true, false, true, true, true⟩ 0x0010) [0xCC, 0x00, 0x01]).map seeStack = some ⟨0x0013, 0x9000, 0x00, 0x00, none⟩ := by
  decide

/-- Vectors 2.7, CALL at 0010 taken and not taken (R234). -/
theorem test_cnc :
    (after (withStack 0x9000 [] ⟨false, false, false, false, true⟩ 0x0010) [0xD4, 0x00, 0x01]).map seeStack = some ⟨0x0013, 0x9000, 0x00, 0x00, none⟩ ∧
    (after (withStack 0x9000 [] ⟨true, true, true, true, false⟩ 0x0010) [0xD4, 0x00, 0x01]).map seeStack = some ⟨0x0100, 0x8FFE, 0x00, 0x13, none⟩ := by
  decide

/-- Vectors 2.7, CALL at 0010 taken and not taken (R235). -/
theorem test_cc :
    (after (withStack 0x9000 [] ⟨false, false, false, false, true⟩ 0x0010) [0xDC, 0x00, 0x01]).map seeStack = some ⟨0x0100, 0x8FFE, 0x00, 0x13, none⟩ ∧
    (after (withStack 0x9000 [] ⟨true, true, true, true, false⟩ 0x0010) [0xDC, 0x00, 0x01]).map seeStack = some ⟨0x0013, 0x9000, 0x00, 0x00, none⟩ := by
  decide

/-- Vectors 2.7, CALL at 0010 taken and not taken (R236). -/
theorem test_cpo :
    (after (withStack 0x9000 [] ⟨false, false, false, true, false⟩ 0x0010) [0xE4, 0x00, 0x01]).map seeStack = some ⟨0x0013, 0x9000, 0x00, 0x00, none⟩ ∧
    (after (withStack 0x9000 [] ⟨true, true, true, false, true⟩ 0x0010) [0xE4, 0x00, 0x01]).map seeStack = some ⟨0x0100, 0x8FFE, 0x00, 0x13, none⟩ := by
  decide

/-- Vectors 2.7, CALL at 0010 taken and not taken (R237). -/
theorem test_cpe :
    (after (withStack 0x9000 [] ⟨false, false, false, true, false⟩ 0x0010) [0xEC, 0x00, 0x01]).map seeStack = some ⟨0x0100, 0x8FFE, 0x00, 0x13, none⟩ ∧
    (after (withStack 0x9000 [] ⟨true, true, true, false, true⟩ 0x0010) [0xEC, 0x00, 0x01]).map seeStack = some ⟨0x0013, 0x9000, 0x00, 0x00, none⟩ := by
  decide

/-- Vectors 2.7, CALL at 0010 taken and not taken (R238). -/
theorem test_cp :
    (after (withStack 0x9000 [] ⟨true, false, false, false, false⟩ 0x0010) [0xF4, 0x00, 0x01]).map seeStack = some ⟨0x0013, 0x9000, 0x00, 0x00, none⟩ ∧
    (after (withStack 0x9000 [] ⟨false, true, true, true, true⟩ 0x0010) [0xF4, 0x00, 0x01]).map seeStack = some ⟨0x0100, 0x8FFE, 0x00, 0x13, none⟩ := by
  decide

/-- Vectors 2.7, CALL at 0010 taken and not taken (R239). -/
theorem test_cm :
    (after (withStack 0x9000 [] ⟨true, false, false, false, false⟩ 0x0010) [0xFC, 0x00, 0x01]).map seeStack = some ⟨0x0100, 0x8FFE, 0x00, 0x13, none⟩ ∧
    (after (withStack 0x9000 [] ⟨false, true, true, true, true⟩ 0x0010) [0xFC, 0x00, 0x01]).map seeStack = some ⟨0x0013, 0x9000, 0x00, 0x00, none⟩ := by
  decide

/-- Vectors RET; RET with nothing pushed. -/
theorem test_ret :
    (after (withStack 0x8FFE [(0x8FFF, 0x13)] Flags.clear 0) [0xC9]).map seeStack = some ⟨0x0013, 0x9000, 0x00, 0x13, none⟩ ∧
    (after State.reset [0xC9]).map (fun t => (t.pc, t.sp)) = some (0, 0xF801) := by
  decide

/-- By R242 and R261: taken, not taken. -/
theorem test_rnz :
    (after (withStack 0x8FFE [(0x8FFF, 0x13), (0x9000, 0x20)] ⟨false, true, false, false, false⟩ 0) [0xC0]).map seeStack = some ⟨0x0001, 0x8FFE, 0x20, 0x13, none⟩ ∧
    (after (withStack 0x8FFE [(0x8FFF, 0x13), (0x9000, 0x20)] ⟨true, false, true, true, true⟩ 0) [0xC0]).map seeStack = some ⟨0x2013, 0x9000, 0x20, 0x13, none⟩ := by
  decide

/-- By R243 and R261: taken, not taken. -/
theorem test_rz :
    (after (withStack 0x8FFE [(0x8FFF, 0x13), (0x9000, 0x20)] ⟨false, true, false, false, false⟩ 0) [0xC8]).map seeStack = some ⟨0x2013, 0x9000, 0x20, 0x13, none⟩ ∧
    (after (withStack 0x8FFE [(0x8FFF, 0x13), (0x9000, 0x20)] ⟨true, false, true, true, true⟩ 0) [0xC8]).map seeStack = some ⟨0x0001, 0x8FFE, 0x20, 0x13, none⟩ := by
  decide

/-- By R244 and R261: taken, not taken. -/
theorem test_rnc :
    (after (withStack 0x8FFE [(0x8FFF, 0x13), (0x9000, 0x20)] ⟨false, false, false, false, true⟩ 0) [0xD0]).map seeStack = some ⟨0x0001, 0x8FFE, 0x20, 0x13, none⟩ ∧
    (after (withStack 0x8FFE [(0x8FFF, 0x13), (0x9000, 0x20)] ⟨true, true, true, true, false⟩ 0) [0xD0]).map seeStack = some ⟨0x2013, 0x9000, 0x20, 0x13, none⟩ := by
  decide

/-- By R245 and R261: taken, not taken. -/
theorem test_rc :
    (after (withStack 0x8FFE [(0x8FFF, 0x13), (0x9000, 0x20)] ⟨false, false, false, false, true⟩ 0) [0xD8]).map seeStack = some ⟨0x2013, 0x9000, 0x20, 0x13, none⟩ ∧
    (after (withStack 0x8FFE [(0x8FFF, 0x13), (0x9000, 0x20)] ⟨true, true, true, true, false⟩ 0) [0xD8]).map seeStack = some ⟨0x0001, 0x8FFE, 0x20, 0x13, none⟩ := by
  decide

/-- By R246 and R261: taken, not taken. -/
theorem test_rpo :
    (after (withStack 0x8FFE [(0x8FFF, 0x13), (0x9000, 0x20)] ⟨false, false, false, true, false⟩ 0) [0xE0]).map seeStack = some ⟨0x0001, 0x8FFE, 0x20, 0x13, none⟩ ∧
    (after (withStack 0x8FFE [(0x8FFF, 0x13), (0x9000, 0x20)] ⟨true, true, true, false, true⟩ 0) [0xE0]).map seeStack = some ⟨0x2013, 0x9000, 0x20, 0x13, none⟩ := by
  decide

/-- By R247 and R261: taken, not taken. -/
theorem test_rpe :
    (after (withStack 0x8FFE [(0x8FFF, 0x13), (0x9000, 0x20)] ⟨false, false, false, true, false⟩ 0) [0xE8]).map seeStack = some ⟨0x2013, 0x9000, 0x20, 0x13, none⟩ ∧
    (after (withStack 0x8FFE [(0x8FFF, 0x13), (0x9000, 0x20)] ⟨true, true, true, false, true⟩ 0) [0xE8]).map seeStack = some ⟨0x0001, 0x8FFE, 0x20, 0x13, none⟩ := by
  decide

/-- By R248 and R261: taken, not taken. -/
theorem test_rp :
    (after (withStack 0x8FFE [(0x8FFF, 0x13), (0x9000, 0x20)] ⟨true, false, false, false, false⟩ 0) [0xF0]).map seeStack = some ⟨0x0001, 0x8FFE, 0x20, 0x13, none⟩ ∧
    (after (withStack 0x8FFE [(0x8FFF, 0x13), (0x9000, 0x20)] ⟨false, true, true, true, true⟩ 0) [0xF0]).map seeStack = some ⟨0x2013, 0x9000, 0x20, 0x13, none⟩ := by
  decide

/-- By R249 and R261: taken, not taken. -/
theorem test_rm :
    (after (withStack 0x8FFE [(0x8FFF, 0x13), (0x9000, 0x20)] ⟨true, false, false, false, false⟩ 0) [0xF8]).map seeStack = some ⟨0x2013, 0x9000, 0x20, 0x13, none⟩ ∧
    (after (withStack 0x8FFE [(0x8FFF, 0x13), (0x9000, 0x20)] ⟨false, true, true, true, true⟩ 0) [0xF8]).map seeStack = some ⟨0x0001, 0x8FFE, 0x20, 0x13, none⟩ := by
  decide

/-- Vectors PUSH B; PUSH B into the port row (the events come in store order). -/
theorem test_push_b :
    (after (withStack 0x9000 [] Flags.clear 0) [0xC5]).map seeStack = some ⟨1, 0x8FFE, 0x12, 0x34, none⟩ ∧
    (after (withStack 0xFF01 [] Flags.clear 0) [0xC5]).map (fun t => (t.sp, t.ports)) =
      some (0xFEFF, [⟨1, 0x12⟩, ⟨0, 0x34⟩]) := by
  decide

/-- Vector PUSH D. -/
theorem test_push_d : (after (withStack 0x9000 [] Flags.clear 0) [0xD5]).map seeStack = some ⟨1, 0x8FFE, 0xAB, 0xCD, none⟩ := by
  decide

/-- Vectors PUSH H; PUSH H with SP pointing at the high SP cell. -/
theorem test_push_h :
    (after (withStack 0x9000 [] Flags.clear 0) [0xE5]).map seeStack = some ⟨1, 0x8FFE, 0x20, 0x10, none⟩ ∧
    (after (withStack 0xFFF1 [] Flags.clear 0) [0xE5]).map (fun t => (t.pc, t.sp, t.mem.read 0xFFF0, t.mem.read 0xFFF1)) =
      some (1, 0xFFEF, 0xEF, 0xFF) := by
  decide

/-- Vectors POP B; POP B at SP=FFFE (the address wraps). -/
theorem test_pop_b :
    (after (withStack 0x8FFE [(0x8FFF, 0x34), (0x9000, 0x12)] Flags.clear 0) [0xC1]).map
      (fun t => (t.pc, t.regs.b, t.regs.c, t.sp)) = some (1, 0x12, 0x34, 0x9000) ∧
    (after (withStack 0xFFFE [(0xFFFF, 0x66)] Flags.clear 0x10) [0xC1]).map (fun t => (t.pc, t.regs.b, t.regs.c, t.sp)) =
      some (0x11, 0x00, 0x66, 0x0000) := by
  decide

/-- Vector POP D. -/
theorem test_pop_d : (after (withStack 0x8FFE [(0x8FFF, 0x34), (0x9000, 0x12)] Flags.clear 0) [0xD1]).map
    (fun t => (t.pc, t.regs.d, t.regs.e, t.sp)) = some (1, 0x12, 0x34, 0x9000) := by
  decide

/-- Vector POP H. -/
theorem test_pop_h : (after (withStack 0x8FFE [(0x8FFF, 0x34), (0x9000, 0x12)] Flags.clear 0) [0xE1]).map
    (fun t => (t.pc, t.regs.h, t.regs.l, t.sp)) = some (1, 0x12, 0x34, 0x9000) := by
  decide

/-- Vector NOP. -/
theorem test_nop : after State.reset [0x00] = some { State.reset with pc := 1 } := by decide

/-- Vectors HLT; byte 76 is HLT, not MOV M,M. -/
theorem test_hlt : (after { withHL 0x20 0x00 0 with running := true } [0x76]).map
    (fun t => (t.pc, t.running, t.fault, t.mem.read 0x2000)) = some (1, false, none, 0) := by
  decide

/-- Vectors pair 3 of PUSH; an 8080 INR B byte. -/
theorem test_unrecognized :
    (after State.reset [0xF5]).map (fun t => (t.pc, t.running, t.fault)) = some (0, false, some (.unrecognizedOpcode 0xF5 0)) ∧
    (after State.reset [0x04]).map (fun t => (t.pc, t.running, t.fault)) =
      some (0, false, some (.unrecognizedOpcode 0x04 0)) := by
  decide

/-- Vectors of CFG_S: MVI A with the operand in the last cell; JMP whose second operand byte is above memory. -/
theorem test_operands_at_the_end_of_memory :
    (after { small 0xFE with running := true } [0x3E, 0x77]).map (fun t => (t.pc, t.regs.a, t.running, t.fault)) =
      some (0x100, 0x77, false, none) ∧
    (after (small 0xFE) [0xC3, 0x00]).map (fun t => (t.pc, t.fault)) = some (0xFE, some (.memoryRange 0x100)) := by
  decide

/-- Vectors of CheckFlags: 0100 and 000A. -/
theorem test_check_flags :
    checkFlags 0x0100 = ⟨false, true, false, true, true⟩ ∧ checkFlags 0x000A = ⟨false, false, true, true, false⟩ := by
  decide

/-! ### The hypotheses of the statements are met

One theorem per statement of Certificates/Slice0/Obligations.lean that has hypotheses, named after it: a concrete state and
operands that meet all of them together, per clause, at boundary values of their ranges. -/

/-- The next state, where there is one. -/
def answer : Result → Option State
  | .next t => some t
  | _ => none

/-- The spec's table, and one that moves HLT. -/
theorem witness_DecodeInvertsEncode :
    let t := { OpcodeTable.intel8080 with hlt := 0x08 }
    OpcodeTable.intel8080.wf = true ∧ (Instr.mov .m .a).wf .intel8080 = true ∧ (Instr.lxiH 0xFFFF).wf .intel8080 = true ∧
    t.wf = true ∧ (Instr.mov .m .m).wf t = true := by decide

theorem witness_EncodeInvertsDecode :
    OpcodeTable.intel8080.wf = true ∧ decode .intel8080 [0xC3, 0xFF, 0xFF, 0x76] = .ok (.jmp 0xFFFF, [0x76]) :=
  ⟨by decide, rfl⟩

/-- LXI B whose last byte is the last cell (`pc + 3 = total_size + 1`). -/
theorem witness_StepRunsTheDecodedInstruction :
    let s := placeAtPc (small 0xFD) [0x01, 0x22, 0x11]
    s.cfg.wf = true ∧ s.fault = none ∧ s.pc < s.cfg.totalSize ∧
    decode s.cfg.opc [s.mem.read s.pc, s.mem.read (s.pc + 1), s.mem.read (s.pc + 2)] = .ok (.lxiB 0x1122, []) ∧
    s.pc + (Instr.lxiB 0x1122).length = s.cfg.totalSize + 1 :=
  ⟨by decide, rfl, by decide, rfl, by decide⟩

theorem witness_EveryStepKeepsTheStateWellFormed :
    State.reset.wf = true ∧ step State.reset = .next { State.reset with pc := 1 } := ⟨by decide, by rfl⟩

/-- A well-formed configuration and an ill-formed one (`rom_size = ram_start`). -/
theorem witness_StepAlwaysGoesOn :
    Config.cfgS.wf = true ∧ Config.wf { Config.cfgS with romSize := 0x20 } = false := by decide

theorem witness_StepsKeepConfigurationAndImage :
    exec (.mvi .c 1) State.reset = .next { State.reset with regs := { Regs.zero with c := 1 }, pc := 2 } ∧
    step State.reset = .next { State.reset with pc := 1 } := ⟨by rfl, by rfl⟩

/-- STA to the top byte of the protected region. -/
theorem witness_ProtectedBytesNeverChange :
    let s := placeAtPc State.reset [0x32, 0xFF, 0x0F]
    (∃ t, step s = .next t) ∧ 0x0FFF < s.cfg.romSize ∧ s.cfg.romSize = 0x1000 := ⟨⟨_, rfl⟩, by decide, rfl⟩

/-- STA to the last port. -/
theorem witness_StepsOnlyAppendPortEvents :
    ∃ t, step (placeAtPc State.reset [0x32, 0x0F, 0xFF]) = .next t ∧ t.ports = [⟨15, 0⟩] := ⟨_, rfl, by decide⟩

theorem witness_FaultedEngineDoesNothing :
    let s := { State.reset with fault := some (.memoryRange 0x10000) }
    s.cfg.wf = true ∧ s.fault ≠ none := by decide

/-- A step that faults, and a step that goes on running with `pc` one below `total_size`. -/
theorem witness_StepStopsOnFaultAndNeverStarts :
    (∃ t, step (placeAtPc State.reset [0x04]) = .next t ∧ t.fault ≠ none) ∧
    (∃ t, step { State.reset with running := true, pc := 0xFFFD } = .next t ∧ t.running = true ∧ t.pc = 0xFFFE) :=
  ⟨⟨_, rfl, by decide⟩, ⟨_, rfl, by decide⟩⟩

/-- `pc` at `total_size` and past it. -/
theorem witness_EndOfMemoryStopsGracefully :
    (small 0xFF).cfg.wf = true ∧ (small 0xFF).fault = none ∧ (small 0xFF).cfg.totalSize = (small 0xFF).pc ∧
    (small 0xFF).cfg.totalSize ≤ (small 0x101).pc := by decide

/-- The first and the last byte of the list, at the first and the last address that is fetched; and a byte that another
table leaves out. -/
theorem witness_UnrecognizedOpcodeFaults :
    let s := placeAtPc (small 0) [0x03]
    let u := placeAtPc (small 0xFE) [0xFF]
    let v := withOpcodes { OpcodeTable.intel8080 with nop := 0x08 } State.reset
    s.cfg.opc = OpcodeTable.intel8080 ∧ s.cfg.wf = true ∧ s.fault = none ∧ s.pc < s.cfg.totalSize ∧ s.mem.read s.pc ∈ unrecognizedBytes ∧
    u.cfg.opc = OpcodeTable.intel8080 ∧ u.cfg.wf = true ∧ u.fault = none ∧ u.pc < u.cfg.totalSize ∧
    u.mem.read u.pc ∈ unrecognizedBytes ∧
    v.cfg.wf = true ∧ v.fault = none ∧ v.pc < v.cfg.totalSize ∧ decodeOpcode v.cfg.opc (v.mem.read v.pc) = none :=
  ⟨rfl, by decide, rfl, by decide, by decide, rfl, by decide, rfl, by decide, by decide, by decide, rfl, by decide, rfl⟩

theorem witness_OperandBeyondMemoryFaults :
    let s := placeAtPc (small 0xFE) [0xC3]
    s.cfg.wf = true ∧ s.fault = none ∧ s.pc + 1 = s.cfg.totalSize ∧
    opcodeLength s.cfg.opc (s.mem.read s.pc) = some 3 := by
  decide

/-- A three-byte instruction at 0xFFFE does not fetch, and `pc` past memory stays: the bound itself is met. -/
theorem witness_ProgramCounterStaysBounded :
    State.reset.pc ≤ 0x10001 ∧ (∃ t, step { State.reset with pc := 0x10001 } = .next t) := ⟨by decide, ⟨_, rfl⟩⟩

theorem witness_UnconsultedParametersHaveNoEffect :
    State.reset.cfg.wf = true ∧ (withUnconsulted 0x1001 0xFFFE 0 1 7 State.reset).cfg.wf = true := by decide

theorem witness_FlagsWrittenAreTheListed :
    (∃ t, exec .rlc State.reset = .next t) ∧ (∃ t, exec (.cpi 0) State.reset = .next t) ∧
    (∃ t, exec (.adi 0) State.reset = .next t) ∧ (∃ t, exec .nop State.reset = .next t) :=
  ⟨⟨_, rfl⟩, ⟨_, rfl⟩, ⟨_, rfl⟩, ⟨_, rfl⟩⟩

theorem witness_RegistersWrittenAreTheListed :
    (∃ t, exec .popB State.reset = .next t) ∧ Reg8.a ≠ .m ∧ Reg8.a ∉ Instr.popB.registersWritten :=
  ⟨⟨_, rfl⟩, by decide⟩

theorem witness_InstructionsThatStoreNothingKeepMemory :
    (∃ t, exec (.cnz 0) (withAB 0 0 false) = .next t) ∧ (Instr.cnz 0).storedAddresses (withAB 0 0 false) = [] :=
  ⟨⟨_, rfl⟩, by decide⟩

/-- Each store at the lowest writable cell, and an address beside it. -/
theorem witness_SingleStoresChangeOnlyTheirByte :
    (∃ t, exec (.mov .m .a) (withHL 0x10 0x00 1) = .next t) ∧ (∃ t, exec (.mvi .m 1) (withHL 0x10 0x00 1) = .next t) ∧
    (∃ t, exec (.sta 0x1000) (withHL 0 0 1) = .next t) ∧
    (∃ t, exec .staxB { State.reset with regs := { Regs.zero with b := 0x10 } } = .next t) ∧
    (∃ t, exec .staxD { State.reset with regs := { Regs.zero with d := 0x10 } } = .next t) ∧
    0x1001 ≠ (withHL 0x10 0x00 1).hl.toNat :=
  ⟨⟨_, rfl⟩, ⟨_, rfl⟩, ⟨_, rfl⟩, ⟨_, rfl⟩, ⟨_, rfl⟩, by decide⟩

/-- A push that goes on and one that faults half-way, a taken and an untaken call, a pop, a taken and an untaken return. -/
theorem witness_StackInstructionsChangeOnlyStackBytes :
    ((∃ t, exec .pushB (withStack 0x9000 [] Flags.clear 0) = .next t) ∧
      0x8FFE ∉ pushAddresses (withStack 0x9000 [] Flags.clear 0)) ∧
    ((∃ t, exec .pushB (withStack 0x1000 [] Flags.clear 0) = .next t) ∧
      0x1001 ∉ pushAddresses (withStack 0x1000 [] Flags.clear 0)) ∧
    ((Instr.cnz 0, true) ∈ calls 0 Flags.clear ∧ (∃ t, exec (.cnz 0) (withStack 0x9000 [] Flags.clear 0) = .next t)) ∧
    ((Instr.cz 0, false) ∈ calls 0 Flags.clear ∧ (∃ t, exec (.cz 0) (withStack 0x9000 [] Flags.clear 0) = .next t)) ∧
    ((∃ t, exec .popB State.reset = .next t) ∧ 0xFFEF ∉ popAddresses State.reset) ∧
    ((Instr.rnz, true) ∈ returns Flags.clear ∧ (∃ t, exec .rnz State.reset = .next t)) ∧
    ((Instr.rz, false) ∈ returns Flags.clear ∧ (∃ t, exec .rz State.reset = .next t)) :=
  ⟨⟨⟨_, rfl⟩, by decide⟩, ⟨⟨_, rfl⟩, by decide⟩, ⟨by decide, ⟨_, rfl⟩⟩, ⟨by decide, ⟨_, rfl⟩⟩, ⟨⟨_, rfl⟩, by decide⟩,
    ⟨by decide, ⟨_, rfl⟩⟩, ⟨by decide, ⟨_, rfl⟩⟩⟩

theorem witness_InstructionsEndNormallyOrInFaultEntry :
    (∃ t, exec .hlt State.reset = .next t) ∧ (∃ t, exec (.sta 0) State.reset = .next t) := ⟨⟨_, rfl⟩, ⟨_, rfl⟩⟩

/-- Both bytes readable (the last cell is the second), the first beyond the array, and only the second beyond it. -/
theorem witness_TwoByteReadIsLittleEndian :
    (memRead 0xFE (small 0) = .ok 0 ∧ memRead (0xFE + 1) (small 0) = .ok 0) ∧
    memRead 0x100 (small 0) = .error ⟨.memoryRange 0x100, small 0⟩ ∧
    (memRead 0xFF (small 0) = .ok 0 ∧ memRead (0xFF + 1) (small 0) = .error ⟨.memoryRange 0x100, small 0⟩) :=
  ⟨⟨rfl, rfl⟩, rfl, ⟨rfl, rfl⟩⟩

/-- A read that raises, a write in the port row and one beside it. -/
theorem witness_RepeatedWritesAreIdempotentButEmitAgain :
    memRead 0x100 (small 0) = .error ⟨.memoryRange 0x100, small 0⟩ ∧ (∃ t, memWrite 0xE7 9 (small 0) = .ok t) ∧
    (∃ t, memWrite 0xE8 9 (small 0) = .ok t) := ⟨rfl, ⟨_, rfl⟩, ⟨_, rfl⟩⟩

/-- The lowest and the highest writable cell; the first and last port; the cells before and after the port row. -/
theorem witness_WritesAreVisibleAndEmitPortEvents :
    let c := (small 0).cfg
    (c.romSize ≤ 0x10 ∧ 0x10 ≤ c.totalSize ∧ 0x11 ≠ 0x10) ∧ (c.romSize ≤ 0xFF ∧ 0xFF ≤ c.totalSize) ∧
    (c.inOutPortsStart ≤ 0xE0 ∧ 0xE0 < c.inOutPortsStart + c.portRowLen) ∧
    (c.inOutPortsStart ≤ 0xE7 ∧ 0xE7 < c.inOutPortsStart + c.portRowLen) ∧ 0xDF < c.inOutPortsStart ∧
    c.inOutPortsStart + c.portRowLen ≤ 0xE8 := by decide

/-- The top byte of the protected region; an instruction that raises; the third clause states its own state. -/
theorem witness_ProtectedWriteIsRaisedByStoresOnly :
    0x0FFF < State.reset.cfg.romSize ∧ State.reset.cfg.wf = true ∧ State.reset.fault = none ∧
    ∃ t, exec (.sta 0x0FFF) State.reset = .next t ∧ t.fault = some (.protectedMemoryWrite 0x0FFF) :=
  ⟨by decide, by decide, rfl, _, rfl, rfl⟩

/-- An instruction of each kind of fault the table lists. -/
theorem witness_OnlyTheTabledFaultsAreRaised :
    (small 0).cfg.wf = true ∧ (small 0).fault = none ∧
    (∃ t, exec (.lda 0x100) (small 0) = .next t ∧ t.fault = some (.memoryRange 0x100)) ∧
    (∃ t, exec (.sta 0x0F) (small 0) = .next t ∧ t.fault = some (.protectedMemoryWrite 0x0F)) :=
  ⟨by decide, rfl, ⟨_, rfl, rfl⟩, ⟨_, rfl, rfl⟩⟩

/-- A register source, the `M` source in the last cell, and a store at the lowest and the highest writable cell. -/
theorem witness_MovCompletes :
    (Reg8.b ≠ .m ∧ (small 0).operandReadable .a) ∧
    (Reg8.b ≠ .m ∧ { small 0 with regs := { Regs.zero with l := 0xFF } }.operandReadable .m) ∧
    ({ small 0 with regs := { Regs.zero with l := 0x10 } }.writable 0x10 ∧
      { small 0 with regs := { Regs.zero with l := 0xFF } }.writable 0xFF) := by decide

theorem witness_MviCompletes :
    Reg8.b ≠ .m ∧ { small 0 with regs := { Regs.zero with l := 0x10 } }.writable
      { small 0 with regs := { Regs.zero with l := 0x10 } }.hl.toNat := by decide

/-- The first and the last cell. -/
theorem witness_LoadsOfAComplete :
    State.reset.readable (0x0000 : Word).toNat ∧ State.reset.readable (0xFFFF : Word).toNat ∧
    (let s := { small 0 with regs := { Regs.zero with c := 0xFF, e := 0xFF } }
     0xFF = 256 * s.regs.b.toNat + s.regs.c.toNat ∧ 0xFF = 256 * s.regs.d.toNat + s.regs.e.toNat ∧ s.readable 0xFF) := by
  decide

/-- The lowest and the highest writable cell. -/
theorem witness_StoresOfAComplete :
    State.reset.writable (0x1000 : Word).toNat ∧ State.reset.writable (0xFFFF : Word).toNat ∧
    (let s := { small 0 with regs := { Regs.zero with c := 0x10, e := 0xFF } }
     0x10 = 256 * s.regs.b.toNat + s.regs.c.toNat ∧ s.writable 0x10 ∧
     0xFF = 256 * s.regs.d.toNat + s.regs.e.toNat ∧ s.writable 0xFF) := by
  decide

/-- HL, BC, DE and the direct address at the first address beyond the array. -/
theorem witness_ReadsBeyondMemoryFault :
    let s := { small 0 with regs := ⟨0, 1, 0, 1, 0, 1, 0⟩ }
    s.cfg.totalSize < s.hl.toNat ∧ s.cfg.totalSize < s.bc.toNat ∧ s.cfg.totalSize < s.de.toNat ∧
    s.cfg.totalSize < (0x0100 : Word).toNat ∧ s.hl.toNat = s.cfg.totalSize + 1 := by decide

/-- The highest protected cell, and the first address beyond the array. -/
theorem witness_SingleStoresOutsideWritableMemoryFault :
    (let s := { small 0 with regs := ⟨0, 0, 0x0F, 0, 0x0F, 0, 0x0F⟩ }
     (Reg8.m = .m → s.readable s.hl.toNat) ∧ s.hl.toNat < s.cfg.romSize ∧ s.bc.toNat < s.cfg.romSize ∧ s.de.toNat < s.cfg.romSize ∧
     (0x000F : Word).toNat < s.cfg.romSize) ∧
    (let s := { small 0 with regs := ⟨0, 1, 0, 1, 0, 1, 0⟩ }
     s.cfg.romSize ≤ s.hl.toNat ∧ s.cfg.totalSize < s.hl.toNat ∧ s.cfg.totalSize < s.bc.toNat ∧
     s.cfg.totalSize < s.de.toNat ∧ s.cfg.totalSize < (0x0100 : Word).toNat) ∧
    (Reg8.a = .m → (small 0).readable 0x100) := by decide

/-- ADD B, ADD M with HL the last cell, ADD M with HL the first address beyond the array. -/
theorem witness_AddIsTheEightBitSum :
    (let s := placeAtPc (small 0) [0x80]
     s.cfg.wf = true ∧ s.fault = none ∧ s.pc < s.cfg.totalSize ∧ (s.mem.read s.pc).toNat = 0x80 + (Reg8.num .b).toNat ∧
     s.operandReadable .b) ∧
    (let s := placeAtPc { small 0xFE with regs := { Regs.zero with l := 0xFF } } [0x86]
     s.cfg.wf = true ∧ s.fault = none ∧ s.pc < s.cfg.totalSize ∧ (s.mem.read s.pc).toNat = 0x80 + (Reg8.num .m).toNat ∧
     s.operandReadable .m) ∧
    (let s := placeAtPc { small 0 with regs := { Regs.zero with h := 1 } } [0x86]
     s.cfg.wf = true ∧ s.fault = none ∧ s.pc < s.cfg.totalSize ∧ (s.mem.read s.pc).toNat = 0x80 + (Reg8.num .m).toNat ∧
     s.cfg.totalSize < s.hl.toNat) := by decide

theorem witness_RegisterArithmeticCompletes :
    (small 0).operandReadable .b ∧ { small 0 with regs := { Regs.zero with l := 0xFF } }.operandReadable .m := by decide

theorem witness_LogicCompletes :
    (small 0).operandReadable .a ∧ { small 0 with regs := { Regs.zero with l := 0xFF } }.operandReadable .m := by decide

theorem witness_CompareCompletes :
    (small 0).operandReadable .a ∧ { small 0 with regs := { Regs.zero with l := 0xFF } }.operandReadable .m := by decide

/-- A jump that is taken and one that is not. -/
theorem witness_JumpsComplete :
    (Instr.jnz 5, true) ∈ jumps 5 Flags.clear ∧ (Instr.jz 5, false) ∈ jumps 5 Flags.clear := by decide

/-- SP at its highest value and with `sp - 1` the lowest writable cell. -/
theorem witness_TakenCallsComplete :
    let s := withStack 0xFFFF [] Flags.clear 0
    let u := withStack 0x1001 [] Flags.clear 0
    s.cfg.wf = true ∧ (Instr.cnz 5, true) ∈ calls 5 s.flags ∧ s.writable s.sp.toNat ∧ s.writable (s.sp - 1#16).toNat ∧
    u.cfg.wf = true ∧ (Instr.call 5, true) ∈ calls 5 u.flags ∧ u.writable u.sp.toNat ∧ u.writable (u.sp - 1#16).toNat := by
  decide

/-- The high byte in the last cell; SP that wraps. -/
theorem witness_TakenReturnsComplete :
    let s := withStack 0xFFFD [] Flags.clear 0
    let u := withStack 0xFFFE [] Flags.clear 0
    s.cfg.wf = true ∧ (Instr.rnz, true) ∈ returns s.flags ∧ s.readable (s.sp + 2#16).toNat ∧
    s.readable (s.sp + 1#16).toNat ∧ u.cfg.wf = true ∧ (Instr.ret, true) ∈ returns u.flags ∧
    u.readable (u.sp + 2#16).toNat ∧ u.readable (u.sp + 1#16).toNat := by decide

theorem witness_UntakenCallsAndReturnsComplete :
    (Instr.cz 5, false) ∈ calls 5 Flags.clear ∧ (Instr.rz, false) ∈ returns Flags.clear := by decide

/-- SP at its highest value, and with `sp - 1` the lowest writable cell. -/
theorem witness_PushCompletes :
    let s := withStack 0xFFFF [] Flags.clear 0
    let u := withStack 0x1001 [] Flags.clear 0
    s.cfg.wf = true ∧ s.writable s.sp.toNat ∧ s.writable (s.sp - 1#16).toNat ∧
    u.cfg.wf = true ∧ u.writable u.sp.toNat ∧ u.writable (u.sp - 1#16).toNat := by decide

/-- The high byte in the last cell. -/
theorem witness_PopCompletes :
    let s := withStack 0xFFFD [(0xFFFE, 0x66), (0xFFFF, 0x77)] Flags.clear 0
    s.cfg.wf = true ∧ s.readable (s.sp + 2#16).toNat ∧ s.readable (s.sp + 1#16).toNat ∧
    0x77 = s.mem.read (s.sp + 2#16).toNat ∧ 0x66 = s.mem.read (s.sp + 1#16).toNat := by decide

/-- The pairs differ; the stack bytes lie just below the SP cells. -/
theorem witness_PushThenPopIsSymmetric :
    let s := withStack 0xFFEF [] Flags.clear 0
    s.cfg.wf = true ∧ (Instr.pushB, Pair.b) ∈ [(Instr.pushB, Pair.b), (.pushD, .d), (.pushH, .h)] ∧
    (Instr.popD, Pair.d) ∈ [(Instr.popB, Pair.b), (.popD, .d), (.popH, .h)] ∧
    s.writable s.sp.toNat ∧ s.writable (s.sp - 1#16).toNat ∧ ¬ s.isSpCell s.sp.toNat ∧
    ¬ s.isSpCell (s.sp - 1#16).toNat := by decide

/-- SP the highest protected cell; SP the first address beyond the array; SP the lowest writable cell; and, with no
protected cell, SP 0, so that `sp - 1` wraps to 0xFFFF beyond the array. -/
theorem witness_PushFaultsKeepTheEarlierByte :
    (let s := withStack 0x0FFF [] Flags.clear 0
     s.cfg.wf = true ∧ (Instr.pushB, s.bc) ∈ [(Instr.pushB, s.bc), (.pushD, s.de), (.pushH, s.hl)] ∧
     (Instr.cnz 5, true) ∈ calls 5 s.flags ∧ s.sp.toNat < s.cfg.romSize) ∧
    (let s := { small 0 with mem := [(0xF1, 0x01)] }
     s.cfg.wf = true ∧ s.cfg.totalSize < s.sp.toNat ∧ s.sp.toNat = s.cfg.totalSize + 1) ∧
    (let s := withStack 0x1000 [] Flags.clear 0
     s.cfg.wf = true ∧ s.writable s.sp.toNat ∧ (s.sp - 1#16).toNat < s.cfg.romSize) ∧
    (let s := { small 0 with cfg := { Config.cfgS with romSize := 0 }, mem := [] }
     s.cfg.wf = true ∧ s.writable s.sp.toNat ∧ s.cfg.totalSize < (s.sp - 1#16).toNat) := by decide

/-- SP such that `sp + 2` is the first address beyond the array; and, with SP 0xFFFE, `sp + 2` wraps to 0 and `sp + 1`
lies beyond the array. -/
theorem witness_PopsBeyondMemoryFault :
    (let s := { small 0 with mem := [(0xF0, 0xFE)] }
     s.cfg.wf = true ∧ Instr.popB ∈ [Instr.popB, .popD, .popH] ∧ (Instr.rnz, true) ∈ returns s.flags ∧
     s.cfg.totalSize < (s.sp + 2#16).toNat ∧ (s.sp + 2#16).toNat = s.cfg.totalSize + 1) ∧
    (let s := { small 0 with mem := [(0xF0, 0xFE), (0xF1, 0xFF)] }
     s.cfg.wf = true ∧ s.readable (s.sp + 2#16).toNat ∧ s.cfg.totalSize < (s.sp + 1#16).toNat) := by decide

/-- An image that covers some cells and leaves others: the byte at 0 is the image's, the one at 1 is not covered. -/
theorem witness_ResetReloadsImageAndStackPointer :
    let s := { State.reset with romImage := [0x76] }
    s.cfg.wf = true ∧ ¬ s.isSpCell 0 ∧ s.romImage[0]? = some 0x76 ∧ ¬ s.isSpCell 1 ∧ s.romImage.length ≤ 1 := by decide

/-- Every command on a well-formed state, the turns of the run loop also on a running one, and Construct. -/
theorem witness_EveryCommandKeepsTheStateWellFormed :
    let s := { State.reset with running := true, cfg := { Config.cfgT with stepsBeforeSleep := 2 } }
    State.reset.wf = true ∧
    ([Command.clearMemory, .setCode [0x76] 1, .reset Regs.zero Flags.clear, .step, .run, .loopTurn, .batch, .stop,
      .hostWrite 0x1000 1, .rawLoad 0 1].all fun c => (answer (perform c State.reset)).isSome) = true ∧
    s.wf = true ∧
    ([Command.run, .loopTurn, .batch, .stop].all fun c => (answer (perform c s)).isSome) = true ∧
    (answer (construct Config.cfgS Regs.zero Flags.clear)).isSome = true := by decide

end Sys2Proof.Tests
end

section
/-! PROOFS. The state (10_state.md): `M` is the memory cell at HL, an address computed from H and L at the access. -/

namespace Sys2Proof.Machine

/-- `HL = (H << 8) | L` as a number (R12). -/
theorem State.hl_toNat (s : State) : s.hl.toNat = 256 * s.regs.h.toNat + s.regs.l.toNat := by
  rw [State.hl, wordOf_toNat, Nat.add_comm]

/-- The reading half of R22; `regWrite_m` is the writing half. -/
theorem regRead_m (s : State) : regRead .m s = memRead s.hl.toNat s := rfl

/-- Settles O25: `M` is accessed at HL, and HL is the number that H and L make. -/
theorem registerMIsTheMemoryCellAtHL : Obligations.RegisterMIsTheMemoryCellAtHL := by
  intro s v
  rw [← s.hl_toNat]
  exact ⟨regRead_m s, regWrite_m v s⟩

end Sys2Proof.Machine
end

section
/-! PROOFS. Memory access (20_memory.md): the two-byte read, and what a repeated write does again. -/

namespace Sys2Proof.Machine

/-- A write succeeds exactly on a writable address, and then its effect is the store (R68). -/
theorem memWrite_eq_ok {a : Nat} {v : Byte} {s t : State} :
    memWrite a v s = .ok t ↔ s.writable a ∧ t = storeByte a v s := by
  constructor
  · intro h
    rcases memWrite_cases a v s with ⟨hw, e⟩ | ⟨_, e⟩ | ⟨_, _, e⟩ <;> rw [e] at h <;> cases h
    exact ⟨hw, rfl⟩
  · rintro ⟨hw, rfl⟩
    exact memWrite_ok hw

/-- Writing the same byte again leaves every cell as it is. -/
theorem Memory.read_write_again (m : Memory) (a : Nat) (v : Byte) (b : Nat) :
    ((m.write a v).write a v).read b = (m.write a v).read b := by
  by_cases hb : b = a
  · rw [hb, Memory.read_write_same, Memory.read_write_same]
  · rw [Memory.read_write_ne _ v hb]

/-- One event in the port row, none outside (R74). -/
theorem portEvents_length (cfg : Config) (a : Nat) (v : Byte) :
    (portEvents cfg a v).length =
      if cfg.inOutPortsStart ≤ a ∧ a < cfg.inOutPortsStart + cfg.portRowLen then 1 else 0 := by
  unfold portEvents
  split <;> rfl

/-- Settles O26: the low byte is read first, so its fault comes first; the second address is `a + 1` as a natural. -/
theorem twoByteReadIsLittleEndian : Obligations.TwoByteReadIsLittleEndian := by
  intro s a
  refine ⟨fun lo hi hlo hhi => ⟨wordOf lo hi, ?_, wordOf_toNat lo hi⟩, fun r hlo => ?_, fun lo r hlo hhi => ?_⟩
  · rw [memRead16, hlo, attempt_bind_ok, hhi, attempt_bind_ok]
  · rw [memRead16, hlo, attempt_bind_error]
  · rw [memRead16, hlo, attempt_bind_ok, hhi, attempt_bind_error]

/-- Settles O27: a write that succeeded is a store, a store keeps the configuration, so the second write passes the
same checks and emits the same events. -/
theorem repeatedWritesAreIdempotentButEmitAgain : Obligations.RepeatedWritesAreIdempotentButEmitAgain := by
  refine ⟨fun s a r h => memRead_raisesHere a s r h, fun s t a v h => ?_⟩
  obtain ⟨hw, rfl⟩ := memWrite_eq_ok.1 h
  have again : memWrite a v (storeByte a v s) = .ok (storeByte a v (storeByte a v s)) := memWrite_ok hw
  exact ⟨portEvents s.cfg a v, portEvents_length s.cfg a v, rfl, _, again,
    Memory.read_write_again s.mem a v, rfl⟩

end Sys2Proof.Machine
end

section
/-! PROOFS. Flags (41_arithmetic.md R170, R171): the number of 1 bits, and `CheckFlags` as a fact about the low byte. -/

namespace Sys2Proof.Machine

/-- A sum of bits counts the entries whose bit is 1. -/
theorem sum_toNat_eq_length_filter {α : Type} (p : α → Bool) (xs : List α) :
    (xs.map fun x => (p x).toNat).sum = (xs.filter p).length := by
  induction xs with
  | nil => rfl
  | cons x xs ih =>
    rw [List.map_cons, List.sum_cons, ih, List.filter_cons]
    cases p x
    · exact Nat.zero_add _
    · exact Nat.add_comm _ _

/-- The model's sum of eight bits is the count that R171 speaks of. -/
theorem popCount_eq_length_filter (r : Byte) :
    popCount r = ((List.finRange 8).filter fun i => r.getLsb i).length := by
  rw [← sum_toNat_eq_length_filter, ← Fin.sum_univ_def, Fin.sum_univ_eight]
  rfl

theorem popCount_le (r : Byte) : popCount r ≤ 8 := by
  rw [popCount_eq_length_filter]
  exact (List.length_filter_le _ _).trans_eq List.length_finRange

theorem evenParity_eq_true_iff {r : Byte} : evenParity r = true ↔ popCount r % 2 = 0 := decide_eq_true_iff

/-- Settles O39: the count is at most 8, so it is even exactly when it is one of the five listed. -/
theorem evenParityCountsOneBits : Obligations.EvenParityCountsOneBits := by
  refine ⟨fun r => ?_, by decide, by decide, by decide⟩
  have count_le : popCount r ≤ 8 := popCount_le r
  rw [evenParity_eq_true_iff, ← popCount_eq_length_filter]
  simp only [List.mem_cons, List.not_mem_nil, or_false]
  omega

/-- `lo8` as the byte of a number (R11); `lo8_toNat` is its number. -/
theorem lo8_eq_ofNat (w : Word) : lo8 w = BitVec.ofNat 8 (w.toNat % 256) := by
  apply BitVec.eq_of_toNat_eq
  rw [lo8_toNat, BitVec.toNat_ofNat, Nat.mod_mod]

theorem lo8_eq_zero_iff (w : Word) : lo8 w = 0#8 ↔ w.toNat % 256 = 0 := by
  rw [BitVec.toNat_eq, lo8_toNat, BitVec.toNat_ofNat, Nat.zero_mod]

/-- The sign bit of the low byte, as a number. -/
theorem lo8_getLsbD_seven (w : Word) : (lo8 w).getLsbD 7 = decide (128 ≤ w.toNat % 256) := by
  rw [← BitVec.msb_eq_getLsbD_last, BitVec.msb_eq_decide, lo8_toNat]

/-- `CheckFlags(w)` gives the flags of the 8-bit result `w mod 256`, with the carry out of eight bits (R170, R182). -/
theorem checkFlags_eq_resultFlags (w : Word) :
    checkFlags w = resultFlags (w.toNat % 256) (decide (0xFF < w.toNat)) := by
  simp only [checkFlags, resultFlags, lo8_getLsbD_seven, lo8_eq_zero_iff, lo8_toNat, ← lo8_eq_ofNat]

/-- Settles O38: each flag is the one of the result `w mod 256` with the carry out of eight bits. -/
theorem checkFlagsComputesTheFiveFlags : Obligations.CheckFlagsComputesTheFiveFlags := by
  intro w
  rw [checkFlags_eq_resultFlags]
  exact ⟨decide_eq_true_iff, decide_eq_true_iff, decide_eq_true_iff, rfl, decide_eq_true_iff⟩

end Sys2Proof.Machine
end

section
/-! PROOFS. Encoding (30_encoding.md): the decoder and the encoder invert each other under every well-formed table; and
the facts about the table of R109. -/

namespace Sys2Proof

/-! ### A format and the operand bytes it takes -/

/-- The format reads exactly these operand bytes and makes this instruction of them (R101, R104, R105). -/
def Form.Reads : Form → List Byte → Instr → Prop
  | .op j, operands, i => operands = [] ∧ j = i
  | .d8 f, operands, i => ∃ imm, operands = [imm] ∧ f imm = i
  | .d16 f, operands, i => ∃ lo hi, operands = [lo, hi] ∧ f (wordOf lo hi) = i

theorem Form.Reads.length_eq {form : Form} {operands : List Byte} {i : Instr} (h : form.Reads operands i) :
    operands.length + 1 = form.length := by
  cases form with
  | op j => obtain ⟨rfl, _⟩ := h; rfl
  | d8 f => obtain ⟨_, rfl, _⟩ := h; rfl
  | d16 f => obtain ⟨_, _, rfl, _⟩ := h; rfl

/-- Decoding a byte sequence is decoding its first byte and giving the format its operand bytes; the rest is left. -/
theorem decode_eq_ok {t : OpcodeTable} {bytes rest : List Byte} {i : Instr} :
    decode t bytes = .ok (i, rest) ↔ ∃ op operands form,
      bytes = op :: (operands ++ rest) ∧ decodeOpcode t op = some form ∧ form.Reads operands i := by
  constructor
  · intro h
    cases bytes with
    | nil => cases h
    | cons op tail =>
      rw [decode_cons] at h
      split at h
      · cases h
      · next j hd => cases h; exact ⟨op, [], .op i, rfl, hd, rfl, rfl⟩
      · next f hd =>
        cases tail with
        | nil => cases h
        | cons imm tail => cases h; exact ⟨op, [imm], .d8 f, rfl, hd, imm, rfl, rfl⟩
      · next f hd =>
        match tail, h with
        | [], h => cases h
        | [_], h => cases h
        | lo :: hi :: tail, h => cases h; exact ⟨op, [lo, hi], .d16 f, rfl, hd, lo, hi, rfl, rfl⟩
  · rintro ⟨op, operands, form, rfl, hd, hr⟩
    rw [decode_cons, hd]
    cases form with
    | op j => obtain ⟨rfl, rfl⟩ := hr; rfl
    | d8 f => obtain ⟨imm, rfl, rfl⟩ := hr; rfl
    | d16 f => obtain ⟨lo, hi, rfl, rfl⟩ := hr; rfl

/-! ### From the instruction to its byte -/

/-- The instructions whose byte lies in a block and not in the fixed table (R107). -/
def Instr.inBlock : Instr → Bool
  | .mov _ _ | .add _ | .adc _ | .sub _ | .sbb _ | .ana _ | .xra _ | .ora _ | .cmp _ => true
  | _ => false

/-- The groups of the fixed table. -/
theorem OpcodeTable.mem_rows {t : OpcodeTable} {row : Byte × Form} : row ∈ t.rows ↔
    row ∈ t.plainRows ∨ row ∈ t.mviRows ∨ row ∈ t.pairRows ∨ row ∈ t.immediateRows ∨ row ∈ t.jumpRows ∨
    row ∈ t.callRows ∨ row ∈ t.returnRows := by
  simp only [OpcodeTable.rows, List.mem_append, or_assoc]

/-- Some row of the group is the instruction's: its byte, and a format that reads its operand bytes. -/
def Instr.RowIn (i : Instr) (t : OpcodeTable) (group : List (Byte × Form)) : Prop :=
  ∃ row ∈ group, row.1 = i.opcode t ∧ row.2.Reads i.operandBytes i

theorem Instr.RowIn.mono {i : Instr} {t : OpcodeTable} {group rows : List (Byte × Form)} (h : i.RowIn t group)
    (hsub : ∀ row ∈ group, row ∈ rows) : i.RowIn t rows := by
  obtain ⟨row, hrow, hi⟩ := h
  exact ⟨row, hsub row hrow, hi⟩

theorem Instr.mvi_rowIn (t : OpcodeTable) (dst : Reg8) (imm : Byte) : (Instr.mvi dst imm).RowIn t t.mviRows := by
  cases dst <;>
    simp [Instr.RowIn, OpcodeTable.mviRows, RegisterBytes.byteOf, Instr.opcode, Instr.operandBytes, Form.Reads]

/-- Every other instruction has its row in the fixed table. -/
theorem Instr.rowIn_rows (t : OpcodeTable) {i : Instr} (hi : i.inBlock = false) : i.RowIn t t.rows := by
  cases i
  case mov | add | adc | sub | sbb | ana | xra | ora | cmp => cases hi
  case mvi dst imm =>
    exact (Instr.mvi_rowIn t dst imm).mono fun row h => OpcodeTable.mem_rows.2 (by simp [h])
  case nop | hlt | rlc | rrc | ral | rar | stc | sta | lda =>
    refine Instr.RowIn.mono (group := t.plainRows) ?_ fun row h => OpcodeTable.mem_rows.2 (by simp [h])
    simp [Instr.RowIn, OpcodeTable.plainRows, Instr.opcode, Instr.operandBytes, Form.Reads]
  case adi | aci | sui | sbi | ani | xri | ori | cpi =>
    refine Instr.RowIn.mono (group := t.immediateRows) ?_ fun row h => OpcodeTable.mem_rows.2 (by simp [h])
    simp [Instr.RowIn, OpcodeTable.immediateRows, Instr.opcode, Instr.operandBytes, Form.Reads]
  case jmp | jnz | jz | jnc | jc | jpo | jpe | jp | jm =>
    refine Instr.RowIn.mono (group := t.jumpRows) ?_ fun row h => OpcodeTable.mem_rows.2 (by simp [h])
    simp [Instr.RowIn, OpcodeTable.jumpRows, Instr.opcode, Instr.operandBytes, Form.Reads]
  case call | cnz | cz | cnc | cc | cpo | cpe | cp | cm =>
    refine Instr.RowIn.mono (group := t.callRows) ?_ fun row h => OpcodeTable.mem_rows.2 (by simp [h])
    simp [Instr.RowIn, OpcodeTable.callRows, Instr.opcode, Instr.operandBytes, Form.Reads]
  case ret | rnz | rz | rnc | rc | rpo | rpe | rp | rm =>
    refine Instr.RowIn.mono (group := t.returnRows) ?_ fun row h => OpcodeTable.mem_rows.2 (by simp [h])
    simp [Instr.RowIn, OpcodeTable.returnRows, Instr.opcode, Instr.operandBytes, Form.Reads]
  all_goals
    refine Instr.RowIn.mono (group := t.pairRows) ?_ fun row h => OpcodeTable.mem_rows.2 (by simp [h])
    simp [Instr.RowIn, OpcodeTable.pairRows, Instr.opcode, Instr.operandBytes, Form.Reads]

/-! ### From the byte to the instruction -/

/-- Whatever instruction this byte and format decode to is well-formed and encodes to the bytes read. -/
def RowSound (t : OpcodeTable) (row : Byte × Form) : Prop :=
  ∀ operands i, row.2.Reads operands i → i.wf t = true ∧ encode t i = row.1 :: operands

theorem rowSound_op {t : OpcodeTable} {op : Byte} {i : Instr} :
    RowSound t (op, .op i) ↔ i.wf t = true ∧ encode t i = [op] := by
  simp [RowSound, Form.Reads]

theorem rowSound_d8 {t : OpcodeTable} {op : Byte} {f : Byte → Instr} :
    RowSound t (op, .d8 f) ↔ ∀ imm, (f imm).wf t = true ∧ encode t (f imm) = [op, imm] := by
  constructor
  · exact fun h imm => h _ _ ⟨imm, rfl, rfl⟩
  · rintro h _ _ ⟨imm, rfl, rfl⟩
    exact h imm

theorem rowSound_d16 {t : OpcodeTable} {op : Byte} {f : Word → Instr} :
    RowSound t (op, .d16 f) ↔
      ∀ lo hi, (f (wordOf lo hi)).wf t = true ∧ encode t (f (wordOf lo hi)) = [op, lo, hi] := by
  constructor
  · exact fun h lo hi => h _ _ ⟨lo, hi, rfl, rfl⟩
  · rintro h _ _ ⟨lo, hi, rfl, rfl⟩
    exact h lo hi

/-- Every row of the fixed table holds the byte that its instruction encodes to. -/
theorem rows_sound (t : OpcodeTable) : ∀ row ∈ t.rows, RowSound t row := by
  intro row hrow
  rcases OpcodeTable.mem_rows.1 hrow with h | h | h | h | h | h | h
  all_goals clear hrow; revert row
  all_goals
    simp only [OpcodeTable.plainRows, OpcodeTable.mviRows, OpcodeTable.pairRows, OpcodeTable.immediateRows,
      OpcodeTable.jumpRows, OpcodeTable.callRows, OpcodeTable.returnRows, List.forall_mem_cons, rowSound_op,
      rowSound_d8, rowSound_d16]
    simp [encode, Instr.wf, Instr.opcode, Instr.operandBytes, RegisterBytes.byteOf]

/-! ### From a block byte to the instruction -/

theorem Reg8.num_ofNum : ∀ n : BitVec 3, (Reg8.ofNum n).num = n := by decide

/-- A byte is its three fields (R102). -/
theorem byte_eq_fields : ∀ op : Byte,
    patternByte (op.extractLsb' 6 2) (op.extractLsb' 3 3) (op.extractLsb' 0 3) = op := by decide

/-- A byte is its high half, bit 3 and its register field, as `add` and `sub` cut it (R107). -/
theorem byte_eq_arithmetic : ∀ op : Byte,
    op.extractLsb' 4 4 ++ BitVec.ofBool (op.getLsbD 3) ++ op.extractLsb' 0 3 = op := by decide

/-- A byte is its block and its register field, as the logic blocks cut it (R107). -/
theorem byte_eq_block : ∀ op : Byte, op.extractLsb' 3 5 ++ op.extractLsb' 0 3 = op := by decide

theorem fieldSrc_num (op : Byte) : (fieldSrc op).num = op.extractLsb' 0 3 := Reg8.num_ofNum _

theorem movByte_fields {op : Byte} (h : op.extractLsb' 6 2 = 0b01#2) : movByte (fieldDst op) (fieldSrc op) = op := by
  rw [movByte, fieldDst, fieldSrc_num, Reg8.num_ofNum, ← h, byte_eq_fields]

theorem arithmetic_fields {op : Byte} {top : BitVec 4} {bit : Bool} (field : BitVec 3) (hblock : op.extractLsb' 4 4 = top)
    (hbit : op.getLsbD 3 = bit) (hfield : top ++ BitVec.ofBool bit = (0b10#2 ++ field : BitVec 5)) :
    patternByte 0b10#2 field (fieldSrc op).num = op := by
  rw [patternByte, ← hfield, ← hblock, ← hbit, fieldSrc_num, byte_eq_arithmetic]

theorem decodeMov_sound {t : OpcodeTable} {op : Byte} {i : Instr} (hop : op ≠ t.hlt) (h : decodeMov op = some i) :
    i.wf t = true ∧ encode t i = [op] := by
  unfold decodeMov at h
  split at h
  · next hblock =>
    cases h
    simp [Instr.wf, encode, Instr.opcode, Instr.operandBytes, movByte_fields hblock, hop]
  · cases h

theorem decodeAdd_sound (t : OpcodeTable) {op : Byte} {i : Instr} (h : decodeAdd op = some i) :
    i.wf t = true ∧ encode t i = [op] := by
  unfold decodeAdd at h
  split at h
  · next hblock =>
    cases h
    cases hbit : op.getLsbD 3
    · exact ⟨rfl, congrArg (fun b => [b]) (arithmetic_fields 0b000 hblock hbit rfl)⟩
    · exact ⟨rfl, congrArg (fun b => [b]) (arithmetic_fields 0b001 hblock hbit rfl)⟩
  · cases h

theorem decodeSub_sound (t : OpcodeTable) {op : Byte} {i : Instr} (h : decodeSub op = some i) :
    i.wf t = true ∧ encode t i = [op] := by
  unfold decodeSub at h
  split at h
  · next hblock =>
    cases h
    cases hbit : op.getLsbD 3
    · exact ⟨rfl, congrArg (fun b => [b]) (arithmetic_fields 0b010 hblock hbit rfl)⟩
    · exact ⟨rfl, congrArg (fun b => [b]) (arithmetic_fields 0b011 hblock hbit rfl)⟩
  · cases h

theorem decodeLogic_sound {t : OpcodeTable} {op : Byte} {i : Instr} (h : decodeLogic t op = some i) :
    i.wf t = true ∧ encode t i = [op] := by
  have hop : ∀ k, op.extractLsb' 3 5 = k → k ++ (fieldSrc op).num = op := by
    rintro k rfl
    rw [fieldSrc_num, byte_eq_block]
  unfold decodeLogic at h
  split at h
  · next hk => cases h; exact ⟨rfl, congrArg (fun b => [b]) (hop t.cmp hk)⟩
  split at h
  · next hk => cases h; exact ⟨rfl, congrArg (fun b => [b]) (hop t.ora hk)⟩
  split at h
  · next hk => cases h; exact ⟨rfl, congrArg (fun b => [b]) (hop t.xra hk)⟩
  split at h
  · next hk => cases h; exact ⟨rfl, congrArg (fun b => [b]) (hop t.ana hk)⟩
  · cases h

/-- What the variable-field decoders read from a byte that is not HLT's encodes to that byte (R107, R111). -/
theorem decodeVariable_sound {t : OpcodeTable} {op : Byte} {i : Instr} (hop : op ≠ t.hlt)
    (h : decodeVariable t op = some i) : i.wf t = true ∧ encode t i = [op] := by
  unfold decodeVariable at h
  split at h
  · next hd => cases h; exact decodeMov_sound hop hd
  split at h
  · next hd => cases h; exact decodeAdd_sound t hd
  split at h
  · next hd => cases h; exact decodeSub_sound t hd
  · exact decodeLogic_sound h

/-! ### One opcode byte, both ways -/

theorem arithmeticByte_place : ∀ field n : BitVec 3, field.toNat < 4 →
    0x80 ≤ (patternByte 0b10#2 field n).toNat ∧ (patternByte 0b10#2 field n).toNat < 0xA0 := by decide

/-- A byte of `add` or `sub`, given by its fields, is not fixed. -/
theorem arithmeticByte_not_fixed {t : OpcodeTable} (ht : t.wf = true) {field : BitVec 3} (hf : field.toNat < 4)
    (n : BitVec 3) : patternByte 0b10#2 field n ∉ t.fixedBytes :=
  arithmetic_not_fixed ht (arithmeticByte_place field n hf).1 (arithmeticByte_place field n hf).2

/-- The block instructions' bytes, wherever the table puts the logic blocks. -/
theorem Instr.block_opcode {t : OpcodeTable} (ht : t.wf = true) {i : Instr} (hi : i.inBlock = true)
    (hwf : i.wf t = true) :
    i.opcode t ∉ t.fixedBytes ∧ decodeVariable t (i.opcode t) = some i ∧ i.operandBytes = [] := by
  cases i
  case mov dst src =>
    have hne : movByte dst src ≠ t.hlt := by simpa [Instr.wf] using hwf
    exact ⟨mov_not_fixed ht hne, mov_variable t dst src, rfl⟩
  case add src =>
    exact ⟨arithmeticByte_not_fixed ht (by decide) src.num, (arithmetic_variable t src).1, rfl⟩
  case adc src =>
    exact ⟨arithmeticByte_not_fixed ht (by decide) src.num, (arithmetic_variable t src).2.1, rfl⟩
  case sub src =>
    exact ⟨arithmeticByte_not_fixed ht (by decide) src.num, (arithmetic_variable t src).2.2.1, rfl⟩
  case sbb src =>
    exact ⟨arithmeticByte_not_fixed ht (by decide) src.num, (arithmetic_variable t src).2.2.2, rfl⟩
  case ana src =>
    exact ⟨logic_not_fixed ht (by simp [OpcodeTable.logicBlocks]) src.num, (logic_variable ht src).1, rfl⟩
  case xra src =>
    exact ⟨logic_not_fixed ht (by simp [OpcodeTable.logicBlocks]) src.num, (logic_variable ht src).2.1, rfl⟩
  case ora src =>
    exact ⟨logic_not_fixed ht (by simp [OpcodeTable.logicBlocks]) src.num, (logic_variable ht src).2.2.1, rfl⟩
  case cmp src =>
    exact ⟨logic_not_fixed ht (by simp [OpcodeTable.logicBlocks]) src.num, (logic_variable ht src).2.2.2, rfl⟩
  all_goals cases hi

theorem decodeOpcode_opcode {t : OpcodeTable} (ht : t.wf = true) {i : Instr} (hi : i.wf t = true) :
    ∃ form, decodeOpcode t (i.opcode t) = some form ∧ form.Reads i.operandBytes i := by
  cases hb : i.inBlock
  · obtain ⟨⟨op, form⟩, hrow, hop, hreads⟩ := Instr.rowIn_rows t hb
    obtain rfl : op = i.opcode t := hop
    exact ⟨form, decodeOpcode_row ht hrow, hreads⟩
  · obtain ⟨hfixed, hvar, hnil⟩ := Instr.block_opcode ht hb hi
    exact ⟨.op i, by rw [decodeOpcode_block hfixed, hvar]; rfl, hnil, rfl⟩

theorem decodeOpcode_sound {t : OpcodeTable} {op : Byte} {form : Form} (h : decodeOpcode t op = some form) :
    RowSound t (op, form) := by
  rcases decodeOpcode_cases h with hrow | ⟨hfixed, i, hvar, rfl⟩
  · exact rows_sound t _ hrow
  · have hop : op ≠ t.hlt := by
      rintro rfl
      exact hfixed (by simp [OpcodeTable.fixedBytes])
    exact rowSound_op.2 (decodeVariable_sound hop hvar)

/-- Settles O1: the instruction's byte decodes to a format that reads its operand bytes. -/
theorem decodeInvertsEncode : Obligations.DecodeInvertsEncode := by
  intro t i rest ht hi
  obtain ⟨form, hform, hreads⟩ := decodeOpcode_opcode ht hi
  exact decode_eq_ok.2 ⟨i.opcode t, i.operandBytes, form, rfl, hform, hreads⟩

/-- Settles O2: what a byte and its operand bytes decode to encodes to them, for a row of the table and for a block. -/
theorem encodeInvertsDecode : Obligations.EncodeInvertsDecode := by
  intro t bytes rest i _ h
  obtain ⟨op, operands, form, rfl, hform, hreads⟩ := decode_eq_ok.1 h
  obtain ⟨hi, hencode⟩ := decodeOpcode_sound hform operands i hreads
  exact ⟨hi, by rw [hencode, List.cons_append]⟩

/-! ### The table of R109 -/

/-- Settles O3, byte by byte. -/
theorem unrecognizedOpcodesAreTheListed : Obligations.UnrecognizedOpcodesAreTheListed := by
  unfold Obligations.UnrecognizedOpcodesAreTheListed
  decide

/-- Settles O4, word by word. -/
theorem specExampleWordsDecode : Obligations.SpecExampleWordsDecode :=
  ⟨rfl, rfl, rfl, rfl, rfl, rfl, rfl, rfl, rfl, rfl⟩

/-- Settles O60, over the eight registers, the eight conditions and the three pairs. -/
theorem opcodeTableInstanceHasTheBitPatterns : Obligations.OpcodeTableInstanceHasTheBitPatterns := by
  refine ⟨by decide, fun r => ?_, fun cond => ?_, fun p => ?_, rfl, rfl, rfl⟩
  · cases r <;> rfl
  · cases cond <;> exact ⟨rfl, rfl, rfl⟩
  · cases p <;> exact ⟨rfl, rfl, rfl⟩

end Sys2Proof
end

section
/-! PROOFS. The step (70_reset_and_hazards.md R336) and the invariants of every step (60_exceptions.md R288): what every
instruction keeps, how a step ends, and what the fetch raises. -/

namespace Sys2Proof.Machine

/-! ### What every instruction and every step keeps -/

/-- `t` came from `s` by the checked stores `ws`, in that order, and by changes of registers, flags, `pc`, run state and
fault latch: `Evolved`, with fault entry and the stops allowed. -/
structure Stored (s t : State) (ws : List Host.Cell) : Prop where
  cfg : t.cfg = s.cfg
  romImage : t.romImage = s.romImage
  protectedMemoryLength : t.protectedMemoryLength = s.protectedMemoryLength
  writable : ∀ w ∈ ws, s.writable w.1
  mem : t.mem = ws.foldl (fun m w => m.write w.1 w.2) s.mem
  ports : t.ports = s.ports ++ ws.flatMap fun w => portEvents s.cfg w.1 w.2

theorem Stored.refl (s : State) : Stored s s [] := ⟨rfl, rfl, rfl, by simp, rfl, by simp⟩

theorem Evolved.stored {s t : State} {ws : List Host.Cell} (h : Evolved s t ws) : Stored s t ws :=
  ⟨h.cfg, h.romImage, h.protectedMemoryLength, h.writable, h.mem, h.ports⟩

/-- The run state is no part of it. -/
theorem Stored.setRunning {s t : State} {ws : List Host.Cell} (h : Stored s t ws) (r : Bool) :
    Stored s (t.setRunning r) ws :=
  ⟨h.cfg, h.romImage, h.protectedMemoryLength, h.writable, h.mem, h.ports⟩

theorem Stored.takeFault {s : State} {r : Raised} {ws : List Host.Cell} (h : Stored s r.state ws) :
    Stored s (takeFault r) ws :=
  ⟨h.cfg, h.romImage, h.protectedMemoryLength, h.writable, h.mem, h.ports⟩

theorem Stored.stopAtEnd {s t : State} {ws : List Host.Cell} (h : Stored s t ws) : Stored s (stopAtEnd t) ws := by
  unfold Machine.stopAtEnd
  split
  · exact h.setRunning false
  · exact h

theorem exec_stored {i : Instr} {s t : State} (h : exec i s = .next t) : ∃ ws, Stored s t ws := by
  rcases exec_outcome h with ⟨⟨ws, he⟩, _⟩ | ⟨_, rfl⟩ | ⟨r, ⟨ws, he⟩, _, rfl⟩
  · exact ⟨ws, he.stored⟩
  · exact ⟨[], ⟨rfl, rfl, rfl, by simp, rfl, by simp⟩⟩
  · exact ⟨ws, he.stored.takeFault⟩

theorem step_stored {s t : State} (h : step s = .next t) : ∃ ws, Stored s t ws := by
  obtain ⟨_, ⟨_, rfl⟩ | ⟨_, _, rfl⟩ | ⟨_, _, r, _, rfl⟩ | ⟨_, _, i, u, _, hexec, rfl⟩⟩ := step_cases h
  · exact ⟨[], .refl t⟩
  · exact ⟨[], (Stored.refl s).setRunning false⟩
  · exact ⟨[], Stored.takeFault (r := ⟨r, s⟩) (.refl s)⟩
  · obtain ⟨ws, hs⟩ := exec_stored hexec
    exact ⟨ws, hs.stopAtEnd⟩

/-- A checked store never writes below `rom_size`, so the protected bytes stay (R70). -/
theorem Stored.read_protected {s t : State} {ws : List Host.Cell} (h : Stored s t ws) {a : Nat}
    (ha : a < s.cfg.romSize) : t.mem.read a = s.mem.read a := by
  rw [h.mem]
  refine read_stores ws s.mem a fun w hw => ?_
  have writable := (h.writable w hw).1
  omega

/-- Settles O9. -/
theorem stepsKeepConfigurationAndImage : Obligations.StepsKeepConfigurationAndImage := by
  constructor
  · intro i s t h
    obtain ⟨ws, hs⟩ := exec_stored h
    exact ⟨hs.cfg, hs.romImage, hs.protectedMemoryLength⟩
  · intro s t h
    obtain ⟨ws, hs⟩ := step_stored h
    exact ⟨hs.cfg, hs.romImage, hs.protectedMemoryLength⟩

/-- Settles O10: the stores of a step passed the protection check. -/
theorem protectedBytesNeverChange : Obligations.ProtectedBytesNeverChange := by
  intro s t a h ha
  obtain ⟨ws, hs⟩ := step_stored h
  exact hs.read_protected ha

/-- Settles O11: the events are those of the stores, in their order. -/
theorem stepsOnlyAppendPortEvents : Obligations.StepsOnlyAppendPortEvents := by
  intro s t h
  obtain ⟨ws, hs⟩ := step_stored h
  refine ⟨_, hs.ports, fun e he => ?_⟩
  obtain ⟨w, _, hw⟩ := List.mem_flatMap.1 he
  exact portEvents_index hw

/-! ### How a step ends: latch, run state and `pc` -/

/-- The instruction kept the latch, and the run state unless it is HLT, which stops; `pc` is past it or at a target. -/
structure EndsNormally (i : Instr) (s t : State) : Prop where
  fault : t.fault = s.fault
  running : i ≠ .hlt → t.running = s.running
  started : t.running = true → s.running = true
  pc : PcAfter s i.length t.pc

/-- The instruction ended in fault entry: it latched a fault, stopped the engine and left `pc` (R288). -/
structure EndsInFault (s t : State) : Prop where
  fault : t.fault.isSome = true
  running : t.running = false
  pc : t.pc = s.pc

theorem exec_ends {i : Instr} {s t : State} (h : exec i s = .next t) : EndsNormally i s t ∨ EndsInFault s t := by
  rcases exec_outcome h with ⟨⟨ws, he⟩, hpc⟩ | ⟨rfl, rfl⟩ | ⟨r, _, hpc, rfl⟩
  · exact .inl ⟨he.fault, fun _ => he.running, fun hr => he.running ▸ hr, hpc⟩
  · exact .inl ⟨rfl, fun hne => absurd rfl hne, fun hr => by simp at hr, .inl rfl⟩
  · exact .inr ⟨rfl, rfl, hpc⟩

/-- Settles O24. -/
theorem instructionsEndNormallyOrInFaultEntry : Obligations.InstructionsEndNormallyOrInFaultEntry := by
  intro i s t h
  rcases exec_ends h with hn | hf
  · exact .inl ⟨hn.fault, hn.running⟩
  · obtain ⟨r, hr⟩ := Option.isSome_iff_exists.1 hf.fault
    exact .inr ⟨r, hr, hf.running, hf.pc⟩

/-- Settles O8: fetching an instruction is the only way to `exec`, which always goes on. -/
theorem stepAlwaysGoesOn : Obligations.StepAlwaysGoesOn := by
  intro s
  refine ⟨fun hc => ?_, fun hc => by simp [step, hc]⟩
  cases hf : s.fault with
  | some r => exact ⟨s, by simp [step, hc, hf]⟩
  | none =>
    by_cases hp : s.cfg.totalSize ≤ s.pc
    · exact ⟨s.setRunning false, by simp [step, hc, hf, hp]⟩
    · cases hi : fetch s with
      | error r => exact ⟨takeFault r, by simp [step, hc, hf, hp, hi]⟩
      | ok i =>
        obtain ⟨t, ht⟩ := exec_next i s
        exact ⟨stopAtEnd t, by rw [step_of_fetch hc hf (Nat.lt_of_not_le hp) hi, ht]; rfl⟩

/-- With a fault latched a step does nothing (R289). -/
theorem step_of_faulted {s : State} (hc : s.cfg.wf = true) (hf : s.fault ≠ none) : step s = .next s := by
  obtain ⟨r, hr⟩ := Option.ne_none_iff_exists'.1 hf
  simp [step, hc, hr]

theorem beginRun_of_faulted {s : State} (hf : s.fault ≠ none) : beginRun s = .next s := by
  obtain ⟨r, hr⟩ := Option.ne_none_iff_exists'.1 hf
  simp [beginRun, hr]

/-- Settles O12. -/
theorem faultedEngineDoesNothing : Obligations.FaultedEngineDoesNothing :=
  fun _ hc hf => ⟨step_of_faulted hc hf, beginRun_of_faulted hf⟩

/-- Settles O14. -/
theorem endOfMemoryStopsGracefully : Obligations.EndOfMemoryStopsGracefully := by
  intro s hc hf hp
  simp [step, hc, hf, hp, State.setRunning]

/-- The end-of-memory test leaves the engine running only inside memory. -/
theorem stopAtEnd_running_eq_true {s : State} :
    (stopAtEnd s).running = true ↔ s.running = true ∧ s.pc < s.cfg.totalSize := by
  rw [stopAtEnd_running]
  split
  · next h => simp [Nat.not_lt.2 h]
  · next h => simp [Nat.lt_of_not_le h]

/-- Settles O13, over the ends of a step that `step_cases` lists. -/
theorem stepStopsOnFaultAndNeverStarts : Obligations.StepStopsOnFaultAndNeverStarts := by
  intro s t hnone h
  obtain ⟨_, ⟨hf, rfl⟩ | ⟨_, _, rfl⟩ | ⟨_, _, r, _, rfl⟩ | ⟨_, _, i, u, _, hexec, rfl⟩⟩ := step_cases h
  · simp [hnone] at hf
  · exact ⟨fun hne => absurd hnone hne, fun hr => by simp at hr⟩
  · exact ⟨fun _ => ⟨rfl, rfl⟩, fun hr => by simp at hr⟩
  · rw [stopAtEnd_running_eq_true, stopAtEnd_fault, stopAtEnd_pc, stopAtEnd_cfg, stopAtEnd_running]
    rcases exec_ends hexec with hn | hf
    · have hu : u.fault = none := hn.fault.trans hnone
      exact ⟨fun hne => absurd hu hne, fun ⟨hr, hp⟩ => ⟨hn.started hr, hu, hp⟩⟩
    · exact ⟨fun _ => ⟨hf.pc, by rw [hf.running]; split <;> rfl⟩, fun ⟨hr, _⟩ => by rw [hf.running] at hr; cases hr⟩

/-- Settles O17: an instruction starts below `total_size`, at most 0xFFFF, and has at most three bytes. -/
theorem programCounterStaysBounded : Obligations.ProgramCounterStaysBounded := by
  intro s t hpc h
  obtain ⟨hc, ⟨_, rfl⟩ | ⟨_, _, rfl⟩ | ⟨_, _, r, _, rfl⟩ | ⟨_, hlt, i, u, _, hexec, rfl⟩⟩ := step_cases h
  · exact hpc
  · exact hpc
  · exact hpc
  · have total_le := (config_wf_iff _).1 hc
    have length_le := (Laws.OpcodeLength.length_bounds i).2
    rw [stopAtEnd_pc]
    rcases exec_ends hexec with hn | hf
    · rcases hn.pc with hnext | htarget <;> omega
    · exact hf.pc ▸ hpc

/-! ### Well-formed states -/

/-- The clauses of a well-formed state. -/
theorem State.wf_iff (s : State) : s.wf = true ↔
    s.cfg.wf = true ∧ s.romImage.length ≤ s.cfg.totalSize + 1 ∧ s.mem.wf = true ∧
    s.mem.within s.cfg.totalSize = true ∧ (s.fault.isSome = true → s.running = false) :=
  decide_eq_true_iff

/-- Checked stores keep every clause but the last, on the latch and the run state. -/
theorem Stored.wf {s t : State} {ws : List Host.Cell} (h : Stored s t ws) (hs : s.wf = true)
    (hlatch : t.fault.isSome = true → t.running = false) : t.wf = true := by
  obtain ⟨hc, hi, hm, hin, _⟩ := (State.wf_iff s).1 hs
  refine (State.wf_iff t).2 ⟨by rwa [h.cfg], by rwa [h.cfg, h.romImage], ?_, ?_, hlatch⟩
  · rw [h.mem]; exact wf_stores ws hm
  · rw [h.mem, h.cfg]; exact within_stores ws hin fun w hw => (h.writable w hw).2

/-- Settles O6: the stores of a step keep memory's form and bounds, and fault entry stops the engine. -/
theorem everyStepKeepsTheStateWellFormed : Obligations.EveryStepKeepsTheStateWellFormed := by
  intro s t hs h
  obtain ⟨ws, hstored⟩ := step_stored h
  refine hstored.wf hs fun hsome => ?_
  have hlatch := ((State.wf_iff s).1 hs).2.2.2.2
  cases hf : s.fault with
  | some r =>
    have hne : s.fault ≠ none := by simp [hf]
    rw [step_of_faulted ((State.wf_iff s).1 hs).1 hne] at h
    cases h
    exact hlatch hsome
  | none => exact ((stepStopsOnFaultAndNeverStarts s t hf h).1 (Option.isSome_iff_ne_none.1 hsome)).2

/-- Settles O7. -/
theorem resetStateIsWellFormed : Obligations.ResetStateIsWellFormed :=
  (State.wf_iff _).2 ⟨cfgT_wf, by decide, by decide, by decide, fun h => by cases h⟩

/-! ### The fetch -/

/-- The fetch of an instruction whose bytes are inside the array is the decoding of the bytes at `pc`. -/
theorem fetch_of_decode {s : State} {i : Instr} {rest : List Byte}
    (h : decode s.cfg.opc [s.mem.read s.pc, s.mem.read (s.pc + 1), s.mem.read (s.pc + 2)] = .ok (i, rest))
    (hin : s.pc + i.length ≤ s.cfg.totalSize + 1) : fetch s = .ok i := by
  obtain ⟨op, operands, form, hbytes, hform, hreads⟩ := decode_eq_ok.1 h
  obtain ⟨rfl, htail⟩ := List.cons.inj hbytes
  have hlen : i.length = form.length := by
    obtain ⟨_, hencode⟩ := decodeOpcode_sound hform operands i hreads
    rw [Instr.length, (List.cons.inj hencode).2, hreads.length_eq]
  rw [hlen] at hin
  rw [fetch_opcode (by cases form <;> simp only [Form.length] at hin <;> show _ ≤ _ <;> omega), hform]
  cases form with
  | op j => obtain ⟨rfl, rfl⟩ := hreads; rfl
  | d8 f =>
    obtain ⟨imm, rfl, rfl⟩ := hreads
    obtain ⟨rfl, _⟩ := List.cons.inj htail
    simp only [Form.length] at hin
    show fetchOperands _ _ = _
    rw [fetchOperands, memRead_ok (show _ ≤ _ by omega), attempt_bind_ok]
  | d16 f =>
    obtain ⟨lo, hi, rfl, rfl⟩ := hreads
    obtain ⟨rfl, hlast⟩ := List.cons.inj htail
    obtain ⟨rfl, _⟩ := List.cons.inj hlast
    simp only [Form.length] at hin
    show fetchOperands _ _ = _
    rw [fetchOperands, memRead16_ok (show _ ≤ _ by omega), attempt_bind_ok]

/-- Settles O5. -/
theorem stepRunsTheDecodedInstruction : Obligations.StepRunsTheDecodedInstruction := by
  intro s i rest hc hf hp hdecode hin
  rw [step_of_fetch hc hf hp (fetch_of_decode hdecode hin)]
  cases exec i s <;> rfl

/-- A step whose fetch raises is fault entry where it stands. -/
theorem step_of_fetch_error {s : State} {r : FaultRecord} (hc : s.cfg.wf = true) (hf : s.fault = none)
    (hp : s.pc < s.cfg.totalSize) (hfetch : fetch s = .error ⟨r, s⟩) : step s = .next (faultEntry s r) := by
  unfold step
  simp [hc, hf, Nat.not_le.2 hp, hfetch]
  rfl

/-- Settles O15: the listed bytes are those the table of R109 does not assign. -/
theorem unrecognizedOpcodeFaults : Obligations.UnrecognizedOpcodeFaults := by
  intro s hc hf hp hop
  have hnone : decodeOpcode s.cfg.opc (s.mem.read s.pc) = none := by
    rcases hop with hop | ⟨htable, hop⟩
    · exact hop
    · rw [htable]; exact (unrecognizedOpcodesAreTheListed _).2 hop
  refine step_of_fetch_error hc hf hp ?_
  rw [fetch_opcode (Nat.le_of_lt hp), hnone]

/-- Settles O16: only the format with an operand word has three bytes, and its second operand byte is at `pc + 2`. -/
theorem operandBeyondMemoryFaults : Obligations.OperandBeyondMemoryFaults := by
  intro s hc hf hp hlen
  have hlt : s.pc < s.cfg.totalSize := by omega
  refine step_of_fetch_error hc hf hlt ?_
  rw [fetch_opcode (Nat.le_of_lt hlt)]
  unfold opcodeLength at hlen
  cases hform : decodeOpcode s.cfg.opc (s.mem.read s.pc) with
  | none => rw [hform] at hlen; cases hlen
  | some form =>
    rw [hform] at hlen
    cases form with
    | op i => cases hlen
    | d8 f => cases hlen
    | d16 f =>
      show fetchOperands _ _ = _
      have beyond : s.cfg.totalSize < s.pc + 1 + 1 := by omega
      rw [fetchOperands, memRead16, memRead_ok (show _ ≤ _ by omega), attempt_bind_ok, memRead_range beyond,
        attempt_bind_error, attempt_bind_error]

end Sys2Proof.Machine
end

section
/-! PROOFS. The host's commands (10_state.md R41, 70_reset_and_hazards.md R320 to R340): each keeps the state well-formed;
what Reset leaves; the run loop split at a yield. -/

namespace Sys2Proof.Machine

/-! ### Well-formedness, command by command -/

/-- A store in the array keeps a state well-formed, whether or not its address is protected. -/
theorem storeByte_wf {s : State} (hs : s.wf = true) {a : Nat} (ha : a ≤ s.cfg.totalSize) (v : Byte) :
    (storeByte a v s).wf = true := by
  obtain ⟨hc, hi, hm, hin, hlatch⟩ := (State.wf_iff s).1 hs
  exact (State.wf_iff _).2 ⟨hc, hi, Memory.wf_write hm a v, Memory.within_write hin ha v, hlatch⟩

theorem stopEngine_wf {s : State} (hs : s.wf = true) : (stopEngine s).wf = true := by
  obtain ⟨hc, hi, hm, hin, _⟩ := (State.wf_iff s).1 hs
  exact (State.wf_iff _).2 ⟨hc, hi, hm, hin, fun _ => rfl⟩

theorem clearMemory_wf {s : State} (hs : s.wf = true) : (clearMemory s).wf = true := by
  obtain ⟨hc, _, _, _, hlatch⟩ := (State.wf_iff s).1 hs
  exact (State.wf_iff _).2 ⟨hc, Nat.zero_le _, Memory.wf_cleared, Memory.within_cleared _, hlatch⟩

theorem setCode_wf {s t : State} {image : List Byte} {length : Nat} (hs : s.wf = true)
    (h : setCode image length s = .next t) : t.wf = true := by
  obtain ⟨hc, _, hm, hin, hlatch⟩ := (State.wf_iff s).1 hs
  unfold setCode at h
  split at h
  · next hfit => cases h; exact (State.wf_iff _).2 ⟨hc, hfit, hm, hin, hlatch⟩
  · cases h

/-- Reset writes the image, which fits, and the SP cells, which are in the array. -/
theorem resetEngine_wf {s : State} (hs : s.wf = true) (regs : Regs) (flags : Flags) :
    (resetEngine regs flags s).wf = true := by
  obtain ⟨hc, hi, hm, hin, _⟩ := (State.wf_iff s).1 hs
  have spCells_in := (config_wf_iff _).1 hc
  refine (State.wf_iff _).2 ⟨hc, hi, ?_, ?_, fun h => by cases h⟩
  · exact Memory.wf_write (Memory.wf_write (Memory.wf_load hm _ _) _ _) _ _
  · have image_in := Memory.within_load hin 0 s.romImage (by omega)
    exact Memory.within_write (Memory.within_write image_in (by omega) _)
      (show s.cfg.stackPointerLocation + 1 ≤ s.cfg.totalSize by omega) _

theorem beginRun_wf {s t : State} (hs : s.wf = true) (h : beginRun s = .next t) : t.wf = true := by
  unfold beginRun at h
  split at h
  · cases h; exact hs
  · next hf =>
    obtain ⟨hc, hi, hm, hin, _⟩ := (State.wf_iff s).1 hs
    have running_wf : (s.setRunning true).wf = true :=
      (State.wf_iff _).2 ⟨hc, hi, hm, hin, fun hsome => by simp [hf] at hsome⟩
    exact everyStepKeepsTheStateWellFormed _ t running_wf h

theorem runLoop_zero (s : State) : runLoop 0 s = .next s := rfl

theorem runLoop_of_stopped {s : State} (h : s.running = false) (n : Nat) : runLoop n s = .next s := by
  cases n <;> simp [runLoop, h]

theorem runLoop_succ {s : State} (h : s.running = true) (n : Nat) :
    runLoop (n + 1) s = match step s with
      | .next t => runLoop n t
      | .fault r => .fault r
      | .refused r => .refused r :=
  if_pos h

theorem runLoop_wf {s t : State} {n : Nat} (hs : s.wf = true) (h : runLoop n s = .next t) : t.wf = true := by
  induction n generalizing s with
  | zero => cases h; exact hs
  | succ n ih =>
    cases hr : s.running with
    | false => rw [runLoop_of_stopped hr] at h; cases h; exact hs
    | true =>
      rw [runLoop_succ hr] at h
      cases hstep : step s with
      | next u => rw [hstep] at h; exact ih (everyStepKeepsTheStateWellFormed s u hs hstep) h
      | fault r => rw [hstep] at h; cases h
      | refused r => rw [hstep] at h; cases h

theorem rawLoad_wf {s t : State} {a : Nat} {v : Byte} (hs : s.wf = true) (h : rawLoad a v s = .next t) :
    t.wf = true := by
  unfold rawLoad at h
  split at h
  · cases h
  split at h
  · cases h
  · next ha => cases h; exact storeByte_wf hs (Nat.le_of_not_lt ha) v

theorem hostWrite_wf {s t : State} {a : Nat} {v : Byte} (hs : s.wf = true) (h : hostWrite a v s = .next t) :
    t.wf = true := by
  unfold hostWrite at h
  split at h
  · cases h
  split at h
  · cases h
  split at h
  · cases h
  · next ha => cases h; exact storeByte_wf hs (Nat.le_of_not_lt ha) v

theorem freshEngine_wf {cfg : Config} (hc : cfg.wf = true) (regs : Regs) (flags : Flags) :
    (freshEngine cfg regs flags).wf = true :=
  (State.wf_iff _).2 ⟨hc, Nat.zero_le _, Memory.wf_cleared, Memory.within_cleared _, fun h => by cases h⟩

/-- Settles O58, command by command. -/
theorem everyCommandKeepsTheStateWellFormed : Obligations.EveryCommandKeepsTheStateWellFormed := by
  constructor
  · intro c s t hs h
    cases c with
    | clearMemory => cases h; exact clearMemory_wf hs
    | setCode image length => exact setCode_wf hs h
    | reset regs flags => cases h; exact resetEngine_wf hs regs flags
    | step => exact everyStepKeepsTheStateWellFormed s t hs h
    | run => exact beginRun_wf hs h
    | loopTurn => exact runLoop_wf hs h
    | batch => exact runLoop_wf hs h
    | stop => cases h; exact stopEngine_wf hs
    | hostWrite a v => exact hostWrite_wf hs h
    | rawLoad a v => exact rawLoad_wf hs h
  · intro cfg regs flags t h
    unfold construct at h
    split at h
    · next hc => cases h; exact freshEngine_wf hc regs flags
    · cases h

/-! ### Reset -/

/-- Reset leaves `stack_address` in the SP cells (R326). -/
theorem resetEngine_sp (regs : Regs) (flags : Flags) (s : State) :
    (resetEngine regs flags s).sp = BitVec.ofNat 16 s.cfg.stackAddress := by
  simp [resetEngine, State.sp]

/-- Outside the SP cells Reset leaves what copying the image leaves (R326). -/
theorem resetEngine_read (regs : Regs) (flags : Flags) {s : State} {a : Nat} (ha : ¬ s.isSpCell a) :
    (resetEngine regs flags s).mem.read a = (s.mem.load 0 s.romImage).read a := by
  obtain ⟨hlo, hhi⟩ := not_or.1 ha
  simp [resetEngine, hlo, hhi]

/-- Settles O56. -/
theorem resetReloadsImageAndStackPointer : Obligations.ResetReloadsImageAndStackPointer := by
  intro regs flags s hc
  refine ⟨resetEngine regs flags s, rfl, rfl, ?_, fun a ha => ?_⟩
  · have stackAddress_le := (config_wf_iff _).1 hc
    rw [resetEngine_sp, BitVec.toNat_ofNat]
    omega
  · rw [resetEngine_read regs flags ha, Memory.read_load, if_pos (Nat.zero_le a), Nat.sub_zero]
    refine ⟨fun v hv => by rw [hv], fun hlen => ?_⟩
    rw [List.getElem?_eq_none hlen]

/-- Settles O57. -/
theorem resetStateIsConstructThenReset : Obligations.ResetStateIsConstructThenReset :=
  ⟨freshEngine Config.cfgT Regs.zero Flags.clear, by rw [construct, if_pos cfgT_wf], rfl⟩

/-! ### The run loop -/

/-- Settles O59, by induction on the turns before the yield: a stopped engine makes none, a running one steps. -/
theorem yieldsOfTheRunLoopHaveNoEffect : Obligations.YieldsOfTheRunLoopHaveNoEffect := by
  intro m n s
  induction m generalizing s with
  | zero => rw [Nat.zero_add, runLoop_zero]
  | succ m ih =>
    cases hr : s.running with
    | false =>
      rw [runLoop_of_stopped hr, runLoop_of_stopped hr]
      exact (runLoop_of_stopped hr n).symm
    | true =>
      rw [Nat.succ_add, runLoop_succ hr, runLoop_succ hr]
      cases step s with
      | next t => exact ih t
      | fault r => rfl
      | refused r => rfl

end Sys2Proof.Machine
end

section
/-! PROOFS. Parameters without effect (20_memory.md R64, R86, 10_state.md R34, R36): a change of state that touches only
what no operation consults commutes with every operation, and so with every instruction and with the step. -/

namespace Sys2Proof.Machine

/-- `f` keeps every configuration value the operations consult and every register, flag, `pc` and cell, and commutes
with every update. -/
structure Inert (f : State → State) : Prop where
  totalSize : ∀ s, (f s).cfg.totalSize = s.cfg.totalSize
  romSize : ∀ s, (f s).cfg.romSize = s.cfg.romSize
  stackPointerLocation : ∀ s, (f s).cfg.stackPointerLocation = s.cfg.stackPointerLocation
  inOutPortsStart : ∀ s, (f s).cfg.inOutPortsStart = s.cfg.inOutPortsStart
  portRowLen : ∀ s, (f s).cfg.portRowLen = s.cfg.portRowLen
  regs : ∀ s, (f s).regs = s.regs
  flags : ∀ s, (f s).flags = s.flags
  pc : ∀ s, (f s).pc = s.pc
  mem : ∀ s, (f s).mem = s.mem
  setRegs : ∀ s r, (f s).setRegs r = f (s.setRegs r)
  setFlags : ∀ s x, (f s).setFlags x = f (s.setFlags x)
  setPc : ∀ s n, (f s).setPc n = f (s.setPc n)
  setMem : ∀ s m, (f s).setMem m = f (s.setMem m)
  emit : ∀ s es, (f s).emit es = f (s.emit es)
  setRunning : ∀ s r, (f s).setRunning r = f (s.setRunning r)
  setFault : ∀ s x, (f s).setFault x = f (s.setFault x)

theorem withUnconsulted_inert (ramStart ramEnd stackLength stepsBeforeSleep protectedLength : Nat) :
    Inert (withUnconsulted ramStart ramEnd stackLength stepsBeforeSleep protectedLength) := by
  constructor <;> intros <;> rfl

theorem withOpcodes_inert (t : OpcodeTable) : Inert (withOpcodes t) := by
  constructor <;> intros <;> rfl

/-! ### Attempts made in the changed state -/

/-- An attempt's end with `g` applied to its value and `f` to the state it raised in. -/
def carry {α β : Type} (g : α → β) (f : State → State) : Attempt α → Attempt β
  | .ok v => .ok (g v)
  | .error r => .error ⟨r.record, f r.state⟩

/-- Attempts in sequence carry over when each of them does. -/
theorem carry_bind {α β γ δ : Type} {g : α → β} {k : γ → δ} {f : State → State} {x : Attempt α} {y : Attempt β}
    {next : α → Attempt γ} {next' : β → Attempt δ} (hy : y = carry g f x)
    (hnext : ∀ v, next' (g v) = carry k f (next v)) : (y >>= next') = carry k f (x >>= next) := by
  subst hy
  cases x with
  | ok v => exact hnext v
  | error r => rfl

/-- The case of an instruction that raises nothing. -/
theorem next_eq_mapNext {f : State → State} {t u : State} (h : u = f t) : (.next u : Result) = mapNext f (.next t) :=
  congrArg Host.Outcome.next h

section
variable {f : State → State} (hf : Inert f)
include hf

theorem Inert.memRead (a : Nat) (s : State) : memRead a (f s) = carry id f (memRead a s) := by
  unfold Machine.memRead
  rw [hf.totalSize, hf.mem]
  split <;> rfl

theorem Inert.memRead16 (a : Nat) (s : State) : memRead16 a (f s) = carry id f (memRead16 a s) :=
  carry_bind (hf.memRead a s) fun _ => carry_bind (hf.memRead (a + 1) s) fun _ => rfl

theorem Inert.portEvents (a : Nat) (v : Byte) (s : State) : portEvents (f s).cfg a v = portEvents s.cfg a v := by
  unfold Machine.portEvents
  rw [hf.inOutPortsStart, hf.portRowLen]

theorem Inert.storeByte (a : Nat) (v : Byte) (s : State) : storeByte a v (f s) = f (storeByte a v s) := by
  unfold Machine.storeByte
  rw [hf.mem, hf.portEvents, hf.setMem, hf.emit]

theorem Inert.memWrite (a : Nat) (v : Byte) (s : State) : memWrite a v (f s) = carry f f (memWrite a v s) := by
  unfold Machine.memWrite
  rw [hf.romSize, hf.totalSize, hf.storeByte]
  split
  · rfl
  split <;> rfl

theorem Inert.memWrite16 (a : Nat) (v : Word) (s : State) : memWrite16 a v (f s) = carry f f (memWrite16 a v s) :=
  carry_bind (hf.memWrite a _ s) fun t => hf.memWrite (a + 1) _ t

theorem Inert.readSp (s : State) : readSp (f s) = carry id f (readSp s) := by
  unfold Machine.readSp
  rw [hf.stackPointerLocation, hf.memRead16]

theorem Inert.writeSp (v : Word) (s : State) : writeSp v (f s) = carry f f (writeSp v s) := by
  unfold Machine.writeSp
  rw [hf.stackPointerLocation, hf.memWrite16]

theorem Inert.pushStack (v : Word) (s : State) : pushStack v (f s) = carry f f (pushStack v s) :=
  carry_bind (hf.readSp s) fun _ => carry_bind (hf.memWrite _ _ s) fun t => carry_bind (hf.memWrite _ _ t) fun u =>
    hf.writeSp _ u

theorem Inert.popStack (s : State) : popStack (f s) = carry (Prod.map id f) f (popStack s) :=
  carry_bind (hf.readSp s) fun _ => carry_bind (hf.memRead _ s) fun _ => carry_bind (hf.memRead _ s) fun _ =>
    carry_bind (hf.writeSp _ s) fun _ => rfl

theorem Inert.hl (s : State) : (f s).hl = s.hl := by simp only [State.hl, hf.regs]

theorem Inert.pairRead (p : Pair) (s : State) : pairRead p (f s) = pairRead p s := by
  cases p <;> simp only [Machine.pairRead, State.bc, State.de, State.hl, hf.regs]

theorem Inert.pairWrite (p : Pair) (v : Word) (s : State) : pairWrite p v (f s) = f (pairWrite p v s) := by
  cases p <;> simp only [Machine.pairWrite, hf.regs, hf.setRegs]

theorem Inert.regRead (r : Reg8) (s : State) : regRead r (f s) = carry id f (regRead r s) := by
  cases r
  case m => rw [regRead_m, regRead_m, hf.hl, hf.memRead]
  all_goals simp only [Machine.regRead, hf.regs, carry, id]

theorem Inert.regWrite (r : Reg8) (v : Byte) (s : State) : regWrite r v (f s) = carry f f (regWrite r v s) := by
  cases r
  case m => rw [regWrite_m, regWrite_m, hf.hl, hf.memWrite]
  all_goals simp only [Machine.regWrite, hf.regs, hf.setRegs, carry]

theorem Inert.advance (n : Nat) (s : State) : advance n (f s) = f (advance n s) := by
  unfold Machine.advance
  rw [hf.pc, hf.setPc]

theorem Inert.setResult (w : Word) (s : State) : setResult w (f s) = f (setResult w s) := by
  show ((f s).setRegs { (f s).regs with a := lo8 w }).setFlags _ = _
  rw [hf.regs, hf.setRegs, hf.setFlags]
  rfl

theorem Inert.setCompare (v : Byte) (s : State) : setCompare v (f s) = f (setCompare v s) := by
  unfold Machine.setCompare
  rw [hf.regs, hf.flags, hf.setFlags]

theorem Inert.setA (v : Byte) (s : State) : (f s).setA v = f (s.setA v) := by
  show (f s).setRegs { (f s).regs with a := v } = _
  rw [hf.regs, hf.setRegs]
  rfl

theorem Inert.setCarry (c : Bool) (s : State) : setCarry c (f s) = f (setCarry c s) := by
  unfold Machine.setCarry
  rw [hf.flags, hf.setFlags]

theorem Inert.jumpIf (taken : Bool) (t : Word) (s : State) : jumpIf taken t (f s) = f (jumpIf taken t s) := by
  cases taken
  · exact hf.advance 3 s
  · exact hf.setPc s _

theorem Inert.callIf (taken : Bool) (t : Word) (s : State) : callIf taken t (f s) = carry f f (callIf taken t s) := by
  cases taken
  · exact congrArg Except.ok (hf.advance 3 s)
  · refine carry_bind (k := f) ?_ fun u => congrArg Except.ok (hf.setPc u _)
    rw [returnAddress, hf.pc, hf.pushStack]
    rfl

theorem Inert.returnIf (taken : Bool) (s : State) : returnIf taken (f s) = carry f f (returnIf taken s) := by
  cases taken
  · exact congrArg Except.ok (hf.advance 1 s)
  · exact carry_bind (hf.popStack s) fun p => congrArg Except.ok (hf.setPc p.2 _)

theorem Inert.loadA (a : Word) (n : Nat) (s : State) : loadA a n (f s) = carry f f (loadA a n s) :=
  carry_bind (hf.memRead _ s) fun v => congrArg Except.ok (by rw [hf.setA, hf.advance]; rfl)

theorem Inert.storeA (a : Word) (n : Nat) (s : State) : storeA a n (f s) = carry f f (storeA a n s) := by
  unfold Machine.storeA
  rw [hf.regs]
  exact carry_bind (hf.memWrite _ _ s) fun t => congrArg Except.ok (hf.advance n t)

theorem Inert.pushPair (p : Pair) (s : State) : pushPair p (f s) = carry f f (pushPair p s) := by
  unfold Machine.pushPair
  rw [hf.pairRead]
  exact carry_bind (hf.pushStack _ s) fun t => congrArg Except.ok (hf.advance 1 t)

theorem Inert.popPair (p : Pair) (s : State) : popPair p (f s) = carry f f (popPair p s) :=
  carry_bind (hf.popStack s) fun q => congrArg Except.ok (by
    show Machine.advance 1 (Machine.pairWrite p q.1 (f q.2)) = _
    rw [hf.pairWrite, hf.advance])

/-! ### Instructions -/

theorem Inert.conclude {x y : Attempt State} (h : y = carry f f x) : conclude y = mapNext f (conclude x) := by
  subst h
  cases x with
  | ok t => rfl
  | error r =>
    show Host.Outcome.next ((State.setRunning (f r.state) false).setFault _) = _
    rw [hf.setRunning, hf.setFault]
    rfl

theorem Inert.exec (i : Instr) (s : State) : exec i (f s) = mapNext f (exec i s) := by
  cases i
  case nop => exact next_eq_mapNext (hf.advance 1 s)
  case hlt => exact next_eq_mapNext (by rw [hf.setRunning, hf.advance])
  case mov dst src =>
    exact hf.conclude (carry_bind (hf.regRead src s) fun v => carry_bind (hf.regWrite dst v s) fun t =>
      congrArg Except.ok (hf.advance 1 t))
  case mvi dst imm =>
    exact hf.conclude (carry_bind (hf.regWrite dst imm s) fun t => congrArg Except.ok (hf.advance 2 t))
  case lxiB | lxiD | lxiH => exact next_eq_mapNext (by rw [hf.pairWrite, hf.advance])
  case sta => exact hf.conclude (hf.storeA _ 3 s)
  case lda => exact hf.conclude (hf.loadA _ 3 s)
  case staxB | staxD => exact hf.conclude (by rw [hf.pairRead, hf.storeA])
  case ldaxB | ldaxD => exact hf.conclude (by rw [hf.pairRead, hf.loadA])
  case rlc | rrc | ral | rar =>
    exact next_eq_mapNext (by simp only [hf.regs, hf.flags, hf.setA, hf.setCarry, hf.advance])
  case stc => exact next_eq_mapNext (by rw [hf.setCarry, hf.advance])
  case add src | adc src | sub src | sbb src | ana src | xra src | ora src | cmp src =>
    refine hf.conclude (carry_bind (hf.regRead src s) fun v => congrArg Except.ok ?_)
    simp only [id, hf.regs, hf.flags, hf.setResult, hf.setCompare, hf.advance]
  case adi | aci | sui | sbi | ani | xri | ori | cpi =>
    exact next_eq_mapNext (by simp only [hf.regs, hf.flags, hf.setResult, hf.setCompare, hf.advance])
  case jmp | jnz | jz | jnc | jc | jpo | jpe | jp | jm =>
    exact next_eq_mapNext (by simp only [hf.flags, hf.jumpIf])
  case call | cnz | cz | cnc | cc | cpo | cpe | cp | cm =>
    exact hf.conclude (by simp only [hf.flags, hf.callIf])
  case ret | rnz | rz | rnc | rc | rpo | rpe | rp | rm =>
    exact hf.conclude (by simp only [hf.flags, hf.returnIf])
  case pushB | pushD | pushH => exact hf.conclude (hf.pushPair _ s)
  case popB | popD | popH => exact hf.conclude (hf.popPair _ s)

/-! ### The step -/

theorem Inert.fetchOperands (form : Form) (s : State) :
    fetchOperands form (f s) = carry id f (fetchOperands form s) := by
  cases form with
  | op i => rfl
  | d8 g =>
    show (Machine.memRead ((f s).pc + 1) (f s) >>= fun imm => .ok (g imm)) = _
    rw [hf.pc]
    exact carry_bind (hf.memRead _ s) fun _ => rfl
  | d16 g =>
    show (Machine.memRead16 ((f s).pc + 1) (f s) >>= fun w => .ok (g w)) = _
    rw [hf.pc]
    exact carry_bind (hf.memRead16 _ s) fun _ => rfl

/-- The fetch consults the opcode table too. -/
theorem Inert.fetch {s : State} (hopc : (f s).cfg.opc = s.cfg.opc) : fetch (f s) = carry id f (fetch s) := by
  unfold Machine.fetch
  rw [hf.pc, hopc]
  refine carry_bind (hf.memRead s.pc s) fun op => ?_
  rw [id]
  split
  · rfl
  · exact hf.fetchOperands _ s

theorem Inert.stopAtEnd (s : State) : stopAtEnd (f s) = f (stopAtEnd s) := by
  unfold Machine.stopAtEnd
  rw [hf.totalSize, hf.pc, hf.setRunning]
  split <;> rfl

theorem Inert.settle (res : Result) : settle (mapNext f res) = mapNext f (settle res) := by
  cases res with
  | next t => exact congrArg Host.Outcome.next (hf.stopAtEnd t)
  | fault r => rfl
  | refused r => rfl

/-- The step consults the opcode table and the latch too, and whether the configuration is well-formed. -/
theorem Inert.step {s : State} (hc : s.cfg.wf = true) (hc' : (f s).cfg.wf = true) (hopc : (f s).cfg.opc = s.cfg.opc)
    (hfault : (f s).fault = s.fault) : step (f s) = mapNext f (step s) := by
  unfold Machine.step
  rw [if_pos hc, if_pos hc', hfault, hf.totalSize, hf.pc, hf.setRunning, hf.fetch hopc]
  cases s.fault with
  | some r => rfl
  | none =>
    by_cases hp : s.cfg.totalSize ≤ s.pc
    · simp only [if_pos hp, mapNext]
    · simp only [if_neg hp]
      cases Machine.fetch s with
      | ok i =>
        show Machine.settle (Machine.exec i (f s)) = _
        rw [hf.exec, hf.settle]
      | error r => exact hf.conclude (x := .error r) rfl

end

/-- Settles O18: both changes of state are inert. -/
theorem unconsultedParametersHaveNoEffect : Obligations.UnconsultedParametersHaveNoEffect :=
  ⟨fun ramStart ramEnd stackLength stepsBeforeSleep protectedLength _ hc hc' =>
      (withUnconsulted_inert ramStart ramEnd stackLength stepsBeforeSleep protectedLength).step hc hc' rfl rfl,
    fun t i s => (withOpcodes_inert t).exec i s⟩

end Sys2Proof.Machine
end

section
/-! PROOFS. Frames (10_state.md R24, R29, 20_memory.md R62): what every instruction leaves unchanged, said once for the
tables of flags, registers and store addresses, whether or not the instruction faults. -/

namespace Sys2Proof.Machine

/-! ### Attempts, value and fault -/

/-- What an attempt answers satisfies `P`, and what it raises satisfies `E`. -/
def Yields {α : Type} (P : α → Prop) (E : Raised → Prop) : Attempt α → Prop
  | .ok v => P v
  | .error r => E r

theorem Yields.bind {α β : Type} {P : α → Prop} {Q : β → Prop} {E : Raised → Prop} {x : Attempt α}
    {f : α → Attempt β} (hx : Yields P E x) (hf : ∀ v, P v → Yields Q E (f v)) : Yields Q E (x >>= f) := by
  cases x with
  | ok v => exact hf v hx
  | error r => exact hx

/-- A read that can only raise where it stands. -/
theorem RaisesHere.yields {α : Type} {s : State} {x : Attempt α} (h : RaisesHere s x) {E : State → Prop} (hs : E s) :
    Yields (fun _ => True) (fun r => E r.state) x := by
  cases x with
  | ok v => trivial
  | error r => show E r.state; rw [h r rfl]; exact hs

/-- How an instruction ends, from what its attempt yields. -/
theorem Yields.conclude {P : State → Prop} {E : Raised → Prop} {x : Attempt State} (hx : Yields P E x)
    (hE : ∀ r, E r → P (takeFault r)) {t : State} (h : conclude x = .next t) : P t := by
  cases x with
  | ok u => cases h; exact hx
  | error r => cases h; exact hE r hx

/-! ### The frame of an instruction -/

/-- The flags written at most as this row of R29 says. -/
def FlagsWritten.Keeps (w : FlagsWritten) (old new : Flags) : Prop :=
  match w with
  | .none => new = old
  | .all => True
  | .allButAc => new.ac = old.ac
  | .carryOnly => new = { old with c := new.c }

theorem FlagsWritten.Keeps.refl (w : FlagsWritten) (f : Flags) : w.Keeps f f := by
  cases w
  case all => trivial
  all_goals rfl

theorem FlagsWritten.Keeps.trans {w : FlagsWritten} {f g h : Flags} (hfg : w.Keeps f g) (hgh : w.Keeps g h) :
    w.Keeps f h := by
  cases w with
  | none => exact Eq.trans hgh hfg
  | all => trivial
  | allButAc => exact Eq.trans hgh hfg
  | carryOnly =>
    simp only [FlagsWritten.Keeps] at *
    rw [hgh, hfg]

/-- A register other than `M` is a cell of the register file. -/
theorem State.operand_congr {s t : State} {r : Reg8} (hr : r ≠ .m) (h : t.regs = s.regs) :
    t.operand r = s.operand r := by
  cases r
  case m => exact absurd rfl hr
  all_goals simp only [State.operand, h]

/-- From `s` to `t` at most the flags of `w`, the registers `rs` and the bytes at `addrs` were written; with no address
at all, nothing was stored. -/
structure Within (w : FlagsWritten) (rs : List Reg8) (addrs : List Nat) (s t : State) : Prop where
  cfg : t.cfg = s.cfg
  flags : w.Keeps s.flags t.flags
  regs : ∀ r, r ≠ .m → r ∉ rs → t.operand r = s.operand r
  read : ∀ a, a ∉ addrs → t.mem.read a = s.mem.read a
  nothing : addrs = [] → t.mem = s.mem ∧ t.ports = s.ports

section
variable {w : FlagsWritten} {rs : List Reg8} {addrs : List Nat} {s t u : State}

theorem Within.refl (s : State) : Within w rs addrs s s :=
  ⟨rfl, .refl w _, fun _ _ _ => rfl, fun _ _ => rfl, fun _ => ⟨rfl, rfl⟩⟩

theorem Within.trans (h : Within w rs addrs s t) (h' : Within w rs addrs t u) : Within w rs addrs s u where
  cfg := h'.cfg.trans h.cfg
  flags := h.flags.trans h'.flags
  regs r hm hr := (h'.regs r hm hr).trans (h.regs r hm hr)
  read a ha := (h'.read a ha).trans (h.read a ha)
  nothing he := ⟨(h'.nothing he).1.trans (h.nothing he).1, (h'.nothing he).2.trans (h.nothing he).2⟩

/-- A change of `pc`, run state and latch. -/
theorem Within.same (h : Within w rs addrs s t) (hc : u.cfg = t.cfg) (hf : u.flags = t.flags) (hr : u.regs = t.regs)
    (hm : u.mem = t.mem) (ho : u.ports = t.ports) : Within w rs addrs s u :=
  h.trans ⟨hc, hf ▸ .refl w _, fun _ hne _ => State.operand_congr hne hr, fun _ _ => by rw [hm], fun _ => ⟨hm, ho⟩⟩

theorem Within.setPc (h : Within w rs addrs s t) (n : Nat) : Within w rs addrs s (t.setPc n) :=
  h.same rfl rfl rfl rfl rfl

theorem Within.advance (h : Within w rs addrs s t) (n : Nat) : Within w rs addrs s (advance n t) :=
  h.same rfl rfl rfl rfl rfl

theorem Within.takeFault {r : Raised} (h : Within w rs addrs s r.state) : Within w rs addrs s (takeFault r) :=
  h.same rfl rfl rfl rfl rfl

theorem Within.setFlags (h : Within w rs addrs s t) {f : Flags} (hf : w.Keeps t.flags f) :
    Within w rs addrs s (t.setFlags f) :=
  h.trans ⟨rfl, hf, fun _ hne _ => State.operand_congr hne rfl, fun _ _ => rfl, fun _ => ⟨rfl, rfl⟩⟩

theorem Within.setRegs (h : Within w rs addrs s t) {regs : Regs}
    (hr : ∀ r, r ≠ .m → r ∉ rs → (t.setRegs regs).operand r = t.operand r) : Within w rs addrs s (t.setRegs regs) :=
  h.trans ⟨rfl, .refl w _, hr, fun _ _ => rfl, fun _ => ⟨rfl, rfl⟩⟩

theorem Within.setA (h : Within w [.a] addrs s t) (v : Byte) : Within w [.a] addrs s (t.setA v) :=
  h.setRegs (regs := { t.regs with a := v }) fun r hm hr => by cases r <;> simp_all [State.operand]

theorem Within.setResult (h : Within .all [.a] addrs s t) (v : Word) : Within .all [.a] addrs s (setResult v t) :=
  (h.setA _).setFlags trivial

theorem Within.setCarry (h : Within .carryOnly rs addrs s t) (c : Bool) :
    Within .carryOnly rs addrs s (setCarry c t) :=
  h.setFlags (w := .carryOnly) rfl

theorem Within.setCompare (h : Within .allButAc rs addrs s t) (v : Byte) :
    Within .allButAc rs addrs s (setCompare v t) :=
  h.setFlags (w := .allButAc) rfl

theorem Within.storeByte (h : Within w rs addrs s t) {a : Nat} (ha : a ∈ addrs) (v : Byte) :
    Within w rs addrs s (storeByte a v t) :=
  h.trans ⟨rfl, .refl w _, fun _ hne _ => State.operand_congr hne rfl,
    fun _ hb => Memory.read_write_ne _ v fun e => hb (e ▸ ha), fun he => absurd (he ▸ ha) List.not_mem_nil⟩

/-- The attempt answers and raises states within the frame of `s`. -/
abbrev YieldsWithin (w : FlagsWritten) (rs : List Reg8) (addrs : List Nat) (s : State) (x : Attempt State) : Prop :=
  Yields (Within w rs addrs s) (fun r => Within w rs addrs s r.state) x

/-! ### The frames of the operations -/

/-- Reading first: what is read matters only to what follows. -/
theorem Within.bindRead {α : Type} (h : Within w rs addrs s t) {x : Attempt α} (hx : RaisesHere t x)
    {f : α → Attempt State} (hf : ∀ v, YieldsWithin w rs addrs s (f v)) : YieldsWithin w rs addrs s (x >>= f) :=
  (hx.yields (E := Within w rs addrs s) h).bind fun v _ => hf v

theorem Within.memWrite (h : Within w rs addrs s t) {a : Nat} (ha : a ∈ addrs) (v : Byte) :
    YieldsWithin w rs addrs s (memWrite a v t) := by
  rcases memWrite_cases a v t with ⟨_, e⟩ | ⟨_, e⟩ | ⟨_, _, e⟩ <;> rw [e]
  · exact h.storeByte ha v
  · exact h
  · exact h

theorem Within.writeSp (h : Within w rs addrs s t) (hlo : s.cfg.stackPointerLocation ∈ addrs)
    (hhi : s.cfg.stackPointerLocation + 1 ∈ addrs) (v : Word) : YieldsWithin w rs addrs s (writeSp v t) := by
  unfold Machine.writeSp memWrite16
  rw [h.cfg]
  exact (h.memWrite hlo _).bind fun u hu => hu.memWrite hhi _

end

/-- A destination register is the only one written, a destination `M` the byte at HL. -/
theorem regWrite_within (dst : Reg8) (v : Byte) (s : State) :
    YieldsWithin .none [dst] (if dst = .m then [s.hl.toNat] else []) s (regWrite dst v s) := by
  cases dst
  case m => exact (Within.refl s).memWrite (by simp) v
  all_goals exact (Within.refl s).setRegs fun r hm hr => by cases r <;> simp_all [State.operand]

/-- `PushStack` where SP can be read; where it cannot, it raises before it stores (R260). -/
theorem pushStack_within (v : Word) (s : State) : YieldsWithin .none [] (pushAddresses s) s (pushStack v s) := by
  unfold pushStack pushAddresses
  cases hsp : readSp s with
  | error r =>
    have raised_here := memRead16_raisesHere _ s r hsp
    show Within _ _ _ s r.state
    rw [raised_here]
    exact .refl s
  | ok sp =>
    refine ((Within.refl s).memWrite (by simp) _).bind fun t ht => ?_
    exact (ht.memWrite (by simp) _).bind fun u hu => hu.writeSp (by simp) (by simp) _

/-- `PopStack` stores to the SP cells only (R261). -/
theorem popStack_within (s : State) :
    Yields (fun p => Within .none [] (popAddresses s) s p.2) (fun r => Within .none [] (popAddresses s) s r.state)
      (popStack s) := by
  have read {α : Type} {x : Attempt α} (hx : RaisesHere s x) := hx.yields (E := Within .none [] (popAddresses s) s) (.refl s)
  refine (read (memRead16_raisesHere _ s)).bind fun sp _ => ?_
  refine (read (memRead_raisesHere _ s)).bind fun hi _ => ?_
  refine (read (memRead_raisesHere _ s)).bind fun lo _ => ?_
  exact ((Within.refl s).writeSp (by simp [popAddresses]) (by simp [popAddresses]) _).bind fun t ht => ht

theorem callIf_within (taken : Bool) (t : Word) (s : State) :
    YieldsWithin .none [] (if taken then pushAddresses s else []) s (callIf taken t s) := by
  cases taken
  · exact (Within.refl s).advance 3
  · exact (pushStack_within _ s).bind fun u hu => hu.setPc _

theorem returnIf_within (taken : Bool) (s : State) :
    YieldsWithin .none [] (if taken then popAddresses s else []) s (returnIf taken s) := by
  cases taken
  · exact (Within.refl s).advance 1
  · exact (popStack_within s).bind fun p hp => hp.setPc _

theorem jumpIf_within (taken : Bool) (t : Word) (s : State) : Within .none [] [] s (jumpIf taken t s) := by
  cases taken
  · exact (Within.refl s).advance 3
  · exact (Within.refl s).setPc _

theorem storeA_within (a : Word) (n : Nat) (s : State) : YieldsWithin .none [] [a.toNat] s (storeA a n s) :=
  ((Within.refl s).memWrite (by simp) _).bind fun _ ht => ht.advance n

theorem loadA_within (a : Word) (n : Nat) (s : State) : YieldsWithin .none [.a] [] s (loadA a n s) :=
  (Within.refl s).bindRead (memRead_raisesHere _ s) fun v => ((Within.refl s).setA v).advance n

theorem pushPair_within (p : Pair) (s : State) : YieldsWithin .none [] (pushAddresses s) s (pushPair p s) :=
  (pushStack_within _ s).bind fun _ ht => ht.advance 1

/-- The registers of a pair (R23). -/
def pairRegisters : Pair → List Reg8
  | .b => [.b, .c]
  | .d => [.d, .e]
  | .h => [.h, .l]

theorem Within.pairWrite {w : FlagsWritten} {addrs : List Nat} {s t : State} {p : Pair}
    (h : Within w (pairRegisters p) addrs s t) (v : Word) : Within w (pairRegisters p) addrs s (pairWrite p v t) := by
  cases p <;> exact h.setRegs fun r hm hr => by cases r <;> simp_all [State.operand, pairRegisters]

/-- A frame with more registers. -/
theorem Within.moreRegs {w : FlagsWritten} {addrs : List Nat} {s t : State} (h : Within w [] addrs s t)
    (rs : List Reg8) : Within w rs addrs s t :=
  { h with regs := fun r hm _ => h.regs r hm List.not_mem_nil }

theorem popPair_within (p : Pair) (s : State) :
    YieldsWithin .none (pairRegisters p) (popAddresses s) s (popPair p s) := by
  have hx := popStack_within s
  unfold popPair
  cases hpop : popStack s with
  | error r => rw [hpop] at hx; exact hx.moreRegs _
  | ok q => rw [hpop] at hx; exact ((hx.moreRegs _).pairWrite q.1).advance 1

/-! ### Every instruction -/

theorem YieldsWithin.next {w : FlagsWritten} {rs : List Reg8} {addrs : List Nat} {s t : State} {x : Attempt State}
    (hx : YieldsWithin w rs addrs s x) (h : conclude x = .next t) : Within w rs addrs s t :=
  Yields.conclude hx (fun _ hr => hr.takeFault) h

/-- Whatever an instruction does, it does within its rows of R24, R29 and the store addresses, faulting or not. -/
theorem exec_within {i : Instr} {s t : State} (h : exec i s = .next t) :
    Within i.flagsWritten i.registersWritten (i.storedAddresses s) s t := by
  cases i
  case nop => cases h; exact (Within.refl s).advance 1
  case hlt => cases h; exact (Within.refl s).same rfl rfl rfl rfl rfl
  case mov dst src =>
    refine YieldsWithin.next ?_ h
    exact (Within.refl s).bindRead (regRead_raisesHere src s) fun v =>
      (regWrite_within dst v s).bind fun t ht => ht.advance 1
  case mvi dst imm =>
    refine YieldsWithin.next ?_ h
    exact (regWrite_within dst imm s).bind fun t ht => ht.advance 2
  case lxiB imm => cases h; exact ((Within.refl s).pairWrite (p := .b) imm).advance 3
  case lxiD imm => cases h; exact ((Within.refl s).pairWrite (p := .d) imm).advance 3
  case lxiH imm => cases h; exact ((Within.refl s).pairWrite (p := .h) imm).advance 3
  case staxB | staxD | sta => exact (storeA_within _ _ s).next h
  case ldaxB | ldaxD | lda => exact (loadA_within _ _ s).next h
  case rlc | rrc | ral | rar => cases h; exact (((Within.refl s).setA _).setCarry _).advance 1
  case stc => cases h; exact ((Within.refl s).setCarry true).advance 1
  case add src | adc src | sub src | sbb src | ana src | xra src | ora src =>
    refine YieldsWithin.next ?_ h
    exact (Within.refl s).bindRead (regRead_raisesHere src s) fun v => ((Within.refl s).setResult _).advance 1
  case cmp src =>
    refine YieldsWithin.next ?_ h
    exact (Within.refl s).bindRead (regRead_raisesHere src s) fun v => ((Within.refl s).setCompare v).advance 1
  case adi | aci | sui | sbi | ani | xri | ori => cases h; exact ((Within.refl s).setResult _).advance 2
  case cpi imm => cases h; exact ((Within.refl s).setCompare imm).advance 2
  case jmp | jnz | jz | jnc | jc | jpo | jpe | jp | jm => cases h; exact jumpIf_within _ _ s
  case call | cnz | cz | cnc | cc | cpo | cpe | cp | cm => exact (callIf_within _ _ s).next h
  case ret | rnz | rz | rnc | rc | rpo | rpe | rp | rm => exact (returnIf_within _ s).next h
  case pushB | pushD | pushH => exact (pushPair_within _ s).next h
  case popB => exact (popPair_within .b s).next h
  case popD => exact (popPair_within .d s).next h
  case popH => exact (popPair_within .h s).next h

/-- Settles O19. -/
theorem flagsWrittenAreTheListed : Obligations.FlagsWrittenAreTheListed :=
  fun _ _ _ h => (exec_within h).flags

/-- Settles O20. -/
theorem registersWrittenAreTheListed : Obligations.RegistersWrittenAreTheListed :=
  fun _ _ _ r h hm hr => (exec_within h).regs r hm hr

/-- Settles O21. -/
theorem instructionsThatStoreNothingKeepMemory : Obligations.InstructionsThatStoreNothingKeepMemory := by
  intro i s t h hnone
  obtain ⟨hmem, hports⟩ := (exec_within h).nothing hnone
  exact ⟨hmem, hports, fun a => by rw [hmem]⟩

/-- The frame of a single store. -/
theorem Within.read_of_ne {w : FlagsWritten} {rs : List Reg8} {a b : Nat} {s t : State} (h : Within w rs [b] s t)
    (ha : a ≠ b) : t.mem.read a = s.mem.read a := h.read a (by simpa using ha)

/-- Settles O22. -/
theorem singleStoresChangeOnlyTheirByte : Obligations.SingleStoresChangeOnlyTheirByte :=
  ⟨fun _ _ _ _ h ha => (exec_within h).read_of_ne ha,
    fun _ _ _ _ h ha => (exec_within h).read_of_ne ha,
    fun _ _ _ _ h ha => (exec_within h).read_of_ne ha,
    fun _ _ _ h ha => (exec_within h).read_of_ne ha,
    fun _ _ _ h ha => (exec_within h).read_of_ne ha⟩

/-! ### Calls and returns by their tables -/

theorem exec_of_mem_calls {p : Instr × Bool} {target : Word} {s : State} (h : p ∈ calls target s.flags) :
    exec p.1 s = conclude (callIf p.2 target s) := by
  simp only [calls, List.mem_cons, List.not_mem_nil, or_false] at h
  rcases h with rfl | rfl | rfl | rfl | rfl | rfl | rfl | rfl | rfl <;> rfl

theorem exec_of_mem_returns {p : Instr × Bool} {s : State} (h : p ∈ returns s.flags) :
    exec p.1 s = conclude (returnIf p.2 s) := by
  simp only [returns, List.mem_cons, List.not_mem_nil, or_false] at h
  rcases h with rfl | rfl | rfl | rfl | rfl | rfl | rfl | rfl | rfl <;> rfl

/-- Settles O23: a push and a pop by the store addresses, a call and a return by whether it is taken. -/
theorem stackInstructionsChangeOnlyStackBytes : Obligations.StackInstructionsChangeOnlyStackBytes := by
  refine ⟨fun i s t a hi h ha => ?_, fun p target s t a hp h ha => ?_, fun i s t a hi h ha => ?_,
    fun p s t a hp h ha => ?_⟩
  · simp only [List.mem_cons, List.not_mem_nil, or_false] at hi
    rcases hi with rfl | rfl | rfl <;> exact (exec_within h).read a ha
  · rw [exec_of_mem_calls hp] at h
    refine ((callIf_within p.2 target s).next h).read a ?_
    split
    · next htaken => exact ha htaken
    · exact List.not_mem_nil
  · simp only [List.mem_cons, List.not_mem_nil, or_false] at hi
    rcases hi with rfl | rfl | rfl <;> exact (exec_within h).read a ha
  · rw [exec_of_mem_returns hp] at h
    refine ((returnIf_within p.2 s).next h).read a ?_
    split
    · next htaken => exact ha htaken
    · exact List.not_mem_nil

end Sys2Proof.Machine
end

section
/-! PROOFS. Data transfer (40_data_transfer.md R150 to R156): one rule for a store that goes on, one for each fault of a
store, one for a read beyond the array; the instructions are uses of them. -/

namespace Sys2Proof.Machine

/-! ### Writes and port events -/

theorem portEvents_inside {cfg : Config} {a : Nat} (hlo : cfg.inOutPortsStart ≤ a)
    (hhi : a < cfg.inOutPortsStart + cfg.portRowLen) (v : Byte) :
    portEvents cfg a v = [⟨a - cfg.inOutPortsStart, v⟩] :=
  if_pos ⟨hlo, hhi⟩

/-- Settles O28: the write is the store, whose event is the one of its address. -/
theorem writesAreVisibleAndEmitPortEvents : Obligations.WritesAreVisibleAndEmitPortEvents := by
  intro s a v hrom htotal
  refine ⟨storeByte a v s, memWrite_ok ⟨hrom, htotal⟩, ?_, fun b hb => Memory.read_write_ne _ v hb, ?_, ?_, ?_⟩
  · rw [memRead_ok (s := storeByte a v s) htotal, storeByte_mem, Memory.read_write_same]
  · intro hlo hhi
    rw [storeByte_ports, portEvents_inside hlo hhi]
  · intro hbelow
    rw [storeByte_ports, portEvents_outside (.inl hbelow), List.append_nil]
  · intro habove
    rw [storeByte_ports, portEvents_outside (.inr habove), List.append_nil]

/-! ### How a store and a read end an instruction -/

/-- A fault raised first, whatever would have followed. -/
theorem conclude_bind_error {α : Type} {x : Attempt α} {r : FaultRecord} {s : State} (h : x = .error ⟨r, s⟩)
    (f : α → Attempt State) : conclude (x >>= f) = .next (faultEntry s r) := by
  rw [h]; rfl

/-- An instruction that stores one byte and advances. -/
theorem conclude_store {s : State} {a : Nat} (h : s.writable a) (v : Byte) (n : Nat) :
    conclude (memWrite a v s >>= fun t => .ok (advance n t)) = .next (storeResult s a v n) := by
  rw [memWrite_ok h]; rfl

/-- `BC` as a number (R12). -/
theorem State.bc_toNat (s : State) : s.bc.toNat = 256 * s.regs.b.toNat + s.regs.c.toNat := by
  rw [State.bc, wordOf_toNat, Nat.add_comm]

/-- `DE` as a number (R12). -/
theorem State.de_toNat (s : State) : s.de.toNat = 256 * s.regs.d.toNat + s.regs.e.toNat := by
  rw [State.de, wordOf_toNat, Nat.add_comm]

/-! ### The instructions, one equation each -/

theorem exec_mov (dst src : Reg8) (s : State) : exec (.mov dst src) s =
    conclude (regRead src s >>= fun v => regWrite dst v s >>= fun t => .ok (advance 1 t)) := rfl

theorem exec_mvi (dst : Reg8) (v : Byte) (s : State) : exec (.mvi dst v) s =
    conclude (regWrite dst v s >>= fun t => .ok (advance 2 t)) := rfl

theorem exec_sta (addr : Word) (s : State) : exec (.sta addr) s =
    conclude (memWrite addr.toNat s.regs.a s >>= fun t => .ok (advance 3 t)) := rfl

theorem exec_staxB (s : State) : exec .staxB s =
    conclude (memWrite s.bc.toNat s.regs.a s >>= fun t => .ok (advance 1 t)) := rfl

theorem exec_staxD (s : State) : exec .staxD s =
    conclude (memWrite s.de.toNat s.regs.a s >>= fun t => .ok (advance 1 t)) := rfl

theorem exec_lda (addr : Word) (s : State) : exec (.lda addr) s =
    conclude (memRead addr.toNat s >>= fun v => .ok (advance 3 (s.setA v))) := rfl

theorem exec_ldaxB (s : State) : exec .ldaxB s =
    conclude (memRead s.bc.toNat s >>= fun v => .ok (advance 1 (s.setA v))) := rfl

theorem exec_ldaxD (s : State) : exec .ldaxD s =
    conclude (memRead s.de.toNat s >>= fun v => .ok (advance 1 (s.setA v))) := rfl

/-- `MOV M,r` and `MOV M,M` store what the source reads. -/
theorem exec_mov_m {src : Reg8} {s : State} (h : s.operandReadable src) : exec (.mov .m src) s =
    conclude (memWrite s.hl.toNat (s.operand src) s >>= fun t => .ok (advance 1 t)) := by
  rw [exec_mov, regRead_ok h, attempt_bind_ok, regWrite_m]

/-- Settles O31. -/
theorem movCompletes : Obligations.MovCompletes := by
  refine ⟨fun s dst src hdst hsrc => ?_, fun s src hw => ?_⟩
  · rw [exec_mov, regRead_ok hsrc, attempt_bind_ok, regWrite_reg hdst]
    rfl
  · rw [exec_mov_m (fun _ => hw.2), conclude_store hw]

/-- Settles O32. -/
theorem mviCompletes : Obligations.MviCompletes := by
  refine ⟨fun s dst v hdst => ?_, fun s v hw => ?_⟩
  · rw [exec_mvi, regWrite_reg hdst]
    rfl
  · rw [exec_mvi, regWrite_m, conclude_store hw]

/-- `LXI` of any pair. -/
theorem exec_lxi (s : State) (v : Word) :
    exec (.lxiB v) s = .next (advance 3 (pairWrite .b v s)) ∧
    exec (.lxiD v) s = .next (advance 3 (pairWrite .d v s)) ∧
    exec (.lxiH v) s = .next (advance 3 (pairWrite .h v s)) := ⟨rfl, rfl, rfl⟩

/-- A pair takes the two bytes of the word, the first-named register the high one (R23). -/
theorem pairWrite_wordOf (s : State) (lo hi : Byte) :
    pairWrite .b (wordOf lo hi) s = s.setRegs { s.regs with b := hi, c := lo } ∧
    pairWrite .d (wordOf lo hi) s = s.setRegs { s.regs with d := hi, e := lo } ∧
    pairWrite .h (wordOf lo hi) s = s.setRegs { s.regs with h := hi, l := lo } := by
  simp only [pairWrite, lo8_wordOf, hi8_wordOf, and_self]

/-- Settles O33. -/
theorem lxiCompletes : Obligations.LxiCompletes := by
  intro s lo hi
  obtain ⟨execB, execD, execH⟩ := exec_lxi s (wordOf lo hi)
  obtain ⟨writeB, writeD, writeH⟩ := pairWrite_wordOf s lo hi
  rw [execB, execD, execH, writeB, writeD, writeH]
  exact ⟨rfl, rfl, rfl⟩

/-- Settles O34. -/
theorem loadsOfAComplete : Obligations.LoadsOfAComplete := by
  refine ⟨fun s addr h => ?_, fun s a ha h => ?_, fun s a ha h => ?_⟩
  · rw [exec_lda, memRead_ok h]; rfl
  · rw [exec_ldaxB, s.bc_toNat, ← ha, memRead_ok h]; rfl
  · rw [exec_ldaxD, s.de_toNat, ← ha, memRead_ok h]; rfl

/-- Settles O35. -/
theorem storesOfAComplete : Obligations.StoresOfAComplete := by
  refine ⟨fun s addr h => ?_, fun s a ha h => ?_, fun s a ha h => ?_⟩
  · rw [exec_sta, conclude_store h]
  · rw [exec_staxB, s.bc_toNat, ← ha, conclude_store h]
  · rw [exec_staxD, s.de_toNat, ← ha, conclude_store h]

/-! ### Accesses that fault -/

/-- Every instruction that reads its `M` source first. -/
theorem exec_of_source_range {i : Instr} {s : State}
    (hi : (∃ dst, i = .mov dst .m) ∨ i ∈ [.add .m, .adc .m, .sub .m, .sbb .m, .ana .m, .xra .m, .ora .m, .cmp .m])
    (h : s.cfg.totalSize < s.hl.toNat) : exec i s = .next (faultEntry s (.memoryRange s.hl.toNat)) := by
  simp only [List.mem_cons, List.not_mem_nil, or_false] at hi
  rcases hi with ⟨dst, rfl⟩ | rfl | rfl | rfl | rfl | rfl | rfl | rfl | rfl <;>
    exact conclude_bind_error (regRead_range h) _

/-- Settles O36. -/
theorem readsBeyondMemoryFault : Obligations.ReadsBeyondMemoryFault := by
  rintro s i a (⟨hi, rfl⟩ | ⟨hi, rfl⟩ | ⟨addr, rfl, rfl⟩ | ⟨rfl, rfl⟩ | ⟨rfl, rfl⟩) h
  · exact exec_of_source_range (.inl hi) h
  · exact exec_of_source_range (.inr hi) h
  · rw [exec_lda, conclude_bind_error (memRead_range h)]
  · rw [exec_ldaxB, conclude_bind_error (memRead_range h)]
  · rw [exec_ldaxD, conclude_bind_error (memRead_range h)]

/-- Every single store is a checked write at its address and then an advance. -/
theorem exec_of_single_store {s : State} {i : Instr} {a : Nat}
    (hi : (∃ src, (src = .m → s.readable a) ∧ i = .mov .m src ∧ a = s.hl.toNat) ∨ (∃ v, i = .mvi .m v ∧ a = s.hl.toNat) ∨
      (∃ addr : Word, i = .sta addr ∧ a = addr.toNat) ∨ (i = .staxB ∧ a = s.bc.toNat) ∨
      (i = .staxD ∧ a = s.de.toNat)) :
    ∃ v n, exec i s = conclude (memWrite a v s >>= fun t => .ok (advance n t)) := by
  rcases hi with ⟨src, hsrc, rfl, rfl⟩ | ⟨v, rfl, rfl⟩ | ⟨addr, rfl, rfl⟩ | ⟨rfl, rfl⟩ | ⟨rfl, rfl⟩
  · exact ⟨_, _, exec_mov_m hsrc⟩
  · exact ⟨_, _, exec_mvi .m v s⟩
  · exact ⟨_, _, exec_sta addr s⟩
  · exact ⟨_, _, exec_staxB s⟩
  · exact ⟨_, _, exec_staxD s⟩

/-- Settles O37. -/
theorem singleStoresOutsideWritableMemoryFault : Obligations.SingleStoresOutsideWritableMemoryFault := by
  intro s i a hi
  obtain ⟨v, n, hexec⟩ := exec_of_single_store hi
  rw [hexec]
  exact ⟨fun h => conclude_bind_error (memWrite_protected h) _,
    fun hrom h => conclude_bind_error (memWrite_range hrom h) _⟩

end Sys2Proof.Machine
end

section
/-! PROOFS. Arithmetic, logic, compare and rotates (41_arithmetic.md, 42_logical.md): the wide values, results and flags
as numbers, said once; each instruction is one of them on its operand. -/

namespace Sys2Proof.Machine

/-! ### Wide values and results as numbers -/

theorem carryWord_toNat (c : Bool) : (carryWord c).toNat = c.toNat := by cases c <;> rfl

theorem wideSum_toNat (a v : Byte) (c : Bool) : (wideSum a v c).toNat = a.toNat + v.toNat + c.toNat := by
  have := a.isLt
  have := v.isLt
  have := c.toNat_lt
  simp only [wideSum, BitVec.toNat_add, BitVec.toNat_setWidth, carryWord_toNat]
  omega

/-- The 16-bit difference wraps unsigned (R172, D5). -/
theorem wideDifference_toNat (a v : Byte) (c : Bool) :
    (wideDifference a v c).toNat = (65536 + a.toNat - (v.toNat + c.toNat)) % 65536 := by
  have := a.isLt
  have := v.isLt
  have := c.toNat_lt
  simp only [wideDifference, BitVec.toNat_sub, BitVec.toNat_setWidth, carryWord_toNat]
  omega

/-- The common end of arithmetic and logic: A and all flags from the wide value (R173, R182). -/
theorem advance_setResult (w : Word) (n : Nat) (s : State) :
    advance n (setResult w s) = accumulatorResult s (w.toNat % 256) (decide (0xFF < w.toNat)) n := by
  rw [setResult, checkFlags_eq_resultFlags, lo8_eq_ofNat]
  rfl

theorem sum_result (s : State) (v : Byte) (c : Bool) (n : Nat) :
    advance n (setResult (wideSum s.regs.a v c) s) = accumulatorResult s ((s.regs.a.toNat + v.toNat + c.toNat) % 256)
      (decide (256 ≤ s.regs.a.toNat + v.toNat + c.toNat)) n := by
  rw [advance_setResult, wideSum_toNat]
  rfl

/-- The carry out of the wrapped difference is the borrow (R172, R182, D5). -/
theorem difference_result (s : State) (v : Byte) (c : Bool) (n : Nat) :
    advance n (setResult (wideDifference s.regs.a v c) s) =
      accumulatorResult s ((256 + s.regs.a.toNat - (v.toNat + c.toNat)) % 256)
        (decide (s.regs.a.toNat < v.toNat + c.toNat)) n := by
  have := s.regs.a.isLt
  have := v.isLt
  have := c.toNat_lt
  have result_eq : (65536 + s.regs.a.toNat - (v.toNat + c.toNat)) % 65536 % 256 =
      (256 + s.regs.a.toNat - (v.toNat + c.toNat)) % 256 := by omega
  have borrow_iff : 0xFF < (65536 + s.regs.a.toNat - (v.toNat + c.toNat)) % 65536 ↔
      s.regs.a.toNat < v.toNat + c.toNat := by omega
  rw [advance_setResult, wideDifference_toNat, result_eq, decide_eq_decide.2 borrow_iff]

/-- A logic result has no carry (R190, D7). -/
theorem logic_result (s : State) (r : Byte) (n : Nat) :
    advance n (setResult (wideByte r) s) = accumulatorResult s r.toNat false n := by
  have hlt := r.isLt
  have wide : (wideByte r).toNat = r.toNat := by
    simp only [wideByte, BitVec.toNat_setWidth]
    omega
  rw [advance_setResult, wide, Nat.mod_eq_of_lt hlt, decide_eq_false (by omega)]

/-! ### Add, subtract, logic -/

/-- An instruction that reads its operand and then only updates the state. -/
theorem conclude_operand {s : State} {src : Reg8} (h : s.operandReadable src) (f : Byte → State) :
    conclude (regRead src s >>= fun v => .ok (f v)) = .next (f (s.operand src)) := by
  rw [regRead_ok h]; rfl

/-- Settles O41. -/
theorem registerArithmeticCompletes : Obligations.RegisterArithmeticCompletes := by
  intro s src h
  refine ⟨(conclude_operand h _).trans (congrArg _ ?_), (conclude_operand h _).trans (congrArg _ ?_),
    (conclude_operand h _).trans (congrArg _ ?_), (conclude_operand h _).trans (congrArg _ ?_)⟩
  · exact sum_result s _ false 1
  · exact sum_result s _ s.flags.c 1
  · exact difference_result s _ false 1
  · exact difference_result s _ s.flags.c 1

/-- Settles O42. -/
theorem immediateArithmeticCompletes : Obligations.ImmediateArithmeticCompletes := by
  intro s v
  exact ⟨congrArg _ (sum_result s v false 2), congrArg _ (sum_result s v s.flags.c 2),
    congrArg _ (difference_result s v false 2), congrArg _ (difference_result s v s.flags.c 2)⟩

/-- Settles O43. -/
theorem logicCompletes : Obligations.LogicCompletes := by
  refine ⟨fun s src h => ?_, fun s v => ?_⟩
  · exact ⟨(conclude_operand h _).trans (congrArg _ (logic_result s _ 1)),
      (conclude_operand h _).trans (congrArg _ (logic_result s _ 1)),
      (conclude_operand h _).trans (congrArg _ (logic_result s _ 1))⟩
  · exact ⟨congrArg _ (logic_result s _ 2), congrArg _ (logic_result s _ 2), congrArg _ (logic_result s _ 2)⟩

/-- The end-of-memory test finds a faulted engine stopped already. -/
theorem settle_faultEntry (s : State) (r : FaultRecord) : settle (.next (faultEntry s r)) = .next (faultEntry s r) := by
  refine congrArg Host.Outcome.next ?_
  unfold stopAtEnd
  split <;> rfl

/-- Settles O40: the byte decodes to ADD by the table's block `add`, and the step is the instruction and the
end-of-memory test. -/
theorem addIsTheEightBitSum : Obligations.AddIsTheEightBitSum := by
  intro s src hc hf hp hop
  have opcode_eq : s.mem.read s.pc = (Instr.add src).opcode s.cfg.opc := by
    apply BitVec.eq_of_toNat_eq
    rw [hop]
    cases src <;> rfl
  have table_wf : s.cfg.opc.wf = true := by
    obtain ⟨_, _, _, _, _, _, _, _, _, _, _, _, _, hopc⟩ := (config_wf_iff _).1 hc
    exact hopc
  have fetched : fetch s = .ok (.add src) := by
    refine fetch_of_decode (rest := [s.mem.read (s.pc + 1), s.mem.read (s.pc + 2)]) ?_ ?_
    · rw [opcode_eq]
      exact decodeInvertsEncode s.cfg.opc (.add src) _ table_wf rfl
    · show s.pc + 1 ≤ _
      omega
  rw [step_of_fetch hc hf hp fetched]
  refine ⟨fun hsrc => ?_, fun hm hrange => ?_⟩
  · rw [(registerArithmeticCompletes s src hsrc).1]
    rfl
  · subst hm
    have faulted : exec (.add .m) s = .next (faultEntry s (.memoryRange s.hl.toNat)) :=
      exec_of_source_range (.inr (by simp)) hrange
    rw [faulted, settle_faultEntry]

/-! ### Compare -/

theorem byte_getLsbD_seven (r : Byte) : r.getLsbD 7 = decide (128 ≤ r.toNat) := by
  rw [← BitVec.msb_eq_getLsbD_last, BitVec.msb_eq_decide]

theorem byte_getLsbD_zero (r : Byte) : r.getLsbD 0 = decide (r.toNat % 2 = 1) := by
  rw [BitVec.getLsbD, Nat.testBit_zero]

/-- The compare flags are those of the 8-bit difference and the borrow, but Ac stays (R191, D8). -/
theorem compareFlags_eq (a v : Byte) (old : Flags) : compareFlags a v old =
    { resultFlags ((256 + a.toNat - v.toNat) % 256) (decide (a.toNat < v.toNat)) with ac := old.ac } := by
  have difference : (a - v).toNat = (256 + a.toNat - v.toNat) % 256 := by
    have := v.isLt
    rw [BitVec.toNat_sub]
    omega
  have zero_iff : a - v = 0#8 ↔ (a - v).toNat = 0 := by
    rw [BitVec.toNat_eq]
    rfl
  simp only [compareFlags, resultFlags, byte_getLsbD_seven, zero_iff, ← difference, BitVec.ofNat_toNat,
    BitVec.setWidth_eq]

theorem compare_result (s : State) (v : Byte) (n : Nat) : advance n (setCompare v s) = { s with
    flags := { resultFlags ((256 + s.regs.a.toNat - v.toNat) % 256) (decide (s.regs.a.toNat < v.toNat)) with
      ac := s.flags.ac }
    pc := s.pc + n } := by
  rw [setCompare, compareFlags_eq]
  rfl

/-- Settles O44. -/
theorem compareCompletes : Obligations.CompareCompletes :=
  ⟨fun s _ h => (conclude_operand h _).trans (congrArg _ (compare_result s _ 1)),
    fun s v => congrArg _ (compare_result s v 2)⟩

/-! ### Rotates -/

/-- The low bit is free after the shift, so the bit that enters adds to it (R208, R210). -/
theorem rotateLeft_eq (a : Byte) (b : Bool) : rotateLeft a b = BitVec.ofNat 8 (2 * a.toNat % 256 + b.toNat) := by
  revert a b; decide

/-- The high bit is free after the shift, so the bit that enters adds to it (R209, R211). -/
theorem rotateRight_eq (a : Byte) (b : Bool) : rotateRight a b = BitVec.ofNat 8 (a.toNat / 2 + 128 * b.toNat) := by
  revert a b; decide

/-- The rotates write A and Carry, nothing else. -/
theorem exec_rotates (s : State) :
    exec .rlc s = .next (advance 1 (setCarry (s.regs.a.getLsbD 7) (s.setA (rotateLeft s.regs.a (s.regs.a.getLsbD 7))))) ∧
    exec .rrc s = .next (advance 1 (setCarry (s.regs.a.getLsbD 0) (s.setA (rotateRight s.regs.a (s.regs.a.getLsbD 0))))) ∧
    exec .ral s = .next (advance 1 (setCarry (s.regs.a.getLsbD 7) (s.setA (rotateLeft s.regs.a s.flags.c)))) ∧
    exec .rar s = .next (advance 1 (setCarry (s.regs.a.getLsbD 0) (s.setA (rotateRight s.regs.a s.flags.c)))) :=
  ⟨rfl, rfl, rfl, rfl⟩

/-- Settles O45: the bit that leaves is 1 where `A / 128`, or `A mod 2`, is 1. -/
theorem rotatesAndSetCarryComplete : Obligations.RotatesAndSetCarryComplete := by
  intro s
  have := s.regs.a.isLt
  have high_bit : (decide (128 ≤ s.regs.a.toNat)).toNat = s.regs.a.toNat / 128 := by
    by_cases h : 128 ≤ s.regs.a.toNat <;> simp only [h, decide_true, decide_false, Bool.toNat_true, Bool.toNat_false] <;>
      omega
  have low_bit : (decide (s.regs.a.toNat % 2 = 1)).toNat = s.regs.a.toNat % 2 := by
    rcases Nat.mod_two_eq_zero_or_one s.regs.a.toNat with h | h <;> rw [h] <;> rfl
  obtain ⟨rlc_eq, rrc_eq, ral_eq, rar_eq⟩ := exec_rotates s
  rw [rlc_eq, rrc_eq, ral_eq, rar_eq]
  simp only [rotateLeft_eq, rotateRight_eq, byte_getLsbD_seven, byte_getLsbD_zero, high_bit, low_bit]
  exact ⟨rfl, rfl, rfl, rfl, rfl⟩

end Sys2Proof.Machine
end

section
/-! PROOFS. Control transfer and the stack (43_branch.md, 44_stack_control.md): every push and call is `PushStack` and an
update, every pop and return `PopStack` and an update; what the two leave and where they fault is said once. -/

namespace Sys2Proof.Machine

/-! ### Jumps, NOP, HLT -/

theorem exec_of_mem_jumps {p : Instr × Bool} {target : Word} {s : State} (h : p ∈ jumps target s.flags) :
    exec p.1 s = .next (jumpIf p.2 target s) := by
  simp only [jumps, List.mem_cons, List.not_mem_nil, or_false] at h
  rcases h with rfl | rfl | rfl | rfl | rfl | rfl | rfl | rfl | rfl <;> rfl

theorem jumpIf_eq (taken : Bool) (target : Word) (s : State) :
    jumpIf taken target s = { s with pc := if taken then target.toNat else s.pc + 3 } := by
  cases taken <;> rfl

/-- Settles O46. -/
theorem jumpsComplete : Obligations.JumpsComplete := by
  intro s target p hp
  rw [exec_of_mem_jumps hp, jumpIf_eq]

/-- Settles O49. -/
theorem untakenCallsAndReturnsComplete : Obligations.UntakenCallsAndReturnsComplete := by
  refine ⟨fun s target p hp huntaken => ?_, fun s p hp huntaken => ?_⟩
  · rw [exec_of_mem_calls hp, huntaken]
    rfl
  · rw [exec_of_mem_returns hp, huntaken]
    rfl

/-- Settles O55. -/
theorem nopAndHltComplete : Obligations.NopAndHltComplete := fun _ => ⟨rfl, rfl⟩

/-! ### Pushes and calls -/

/-- The instruction pushes `v` and then only updates the state. -/
def Pushes (i : Instr) (s : State) (v : Word) (update : State → State) : Prop :=
  exec i s = conclude (pushStack v s >>= fun t => .ok (update t))

theorem exec_push (s : State) :
    Pushes .pushB s s.bc (advance 1) ∧ Pushes .pushD s s.de (advance 1) ∧ Pushes .pushH s s.hl (advance 1) :=
  ⟨rfl, rfl, rfl⟩

theorem exec_call {i : Instr} {target : Word} {s : State} (h : (i, true) ∈ calls target s.flags) :
    Pushes i s (BitVec.ofNat 16 (s.pc + 3)) (·.setPc target.toNat) :=
  exec_of_mem_calls h

/-- The state `PushStack` leaves, before `pc` moves (R260). -/
theorem Pushes.completes {i : Instr} {s : State} {v : Word} {update : State → State} (h : Pushes i s v update)
    (hc : s.cfg.wf = true) (h0 : s.writable s.sp.toNat) (h1 : s.writable (s.sp - 1#16).toNat) :
    exec i s = .next (update (pushResult s v s.pc)) := by
  rw [h, pushStack_ok hc v h0 h1]
  rfl

/-- Settles O47. -/
theorem takenCallsComplete : Obligations.TakenCallsComplete := by
  rintro s target ⟨i, taken⟩ hc hp rfl h0 h1
  exact (exec_call hp).completes hc h0 h1

/-- Settles O50. -/
theorem pushCompletes : Obligations.PushCompletes := by
  intro s hc h0 h1
  obtain ⟨pushB, pushD, pushH⟩ := exec_push s
  exact ⟨pushB.completes hc h0 h1, pushD.completes hc h0 h1, pushH.completes hc h0 h1⟩

theorem pushStack_first_error {s : State} (hc : s.cfg.wf = true) {v : Word} {r : Raised}
    (h : memWrite s.sp.toNat (hi8 v) s = .error r) : pushStack v s = .error r := by
  rw [pushStack, readSp_ok hc, attempt_bind_ok, h, attempt_bind_error]

theorem pushStack_second_error {s : State} (hc : s.cfg.wf = true) {v : Word} {r : Raised} (h0 : s.writable s.sp.toNat)
    (h : memWrite (s.sp - 1#16).toNat (lo8 v) (storeByte s.sp.toNat (hi8 v) s) = .error r) :
    pushStack v s = .error r := by
  rw [pushStack, readSp_ok hc, attempt_bind_ok, memWrite_ok h0, attempt_bind_ok, h, attempt_bind_error]

/-- A fault of the push is the fault of the instruction, in the state the push reached. -/
theorem Pushes.faults {i : Instr} {s : State} {v : Word} {update : State → State} (h : Pushes i s v update) {r : Raised}
    (hr : pushStack v s = .error r) : exec i s = .next (takeFault r) := by
  rw [h, hr]
  rfl

/-- Settles O53: the checks of the two stack bytes in their order, protection before range. -/
theorem pushFaultsKeepTheEarlierByte : Obligations.PushFaultsKeepTheEarlierByte := by
  intro s i v hc hi
  obtain ⟨update, h⟩ : ∃ update, Pushes i s v update := by
    rcases hi with hi | ⟨target, hcall, rfl⟩
    · obtain ⟨pushB, pushD, pushH⟩ := exec_push s
      simp only [List.mem_cons, List.not_mem_nil, or_false, Prod.mk.injEq] at hi
      rcases hi with ⟨rfl, rfl⟩ | ⟨rfl, rfl⟩ | ⟨rfl, rfl⟩
      exacts [⟨_, pushB⟩, ⟨_, pushD⟩, ⟨_, pushH⟩]
    · exact ⟨_, exec_call hcall⟩
  have protected_le_total := (config_wf_iff _).1 hc
  refine ⟨fun h0 => ?_, fun h0 => ?_, fun h0 h1 => ?_, fun h0 h1 => ?_⟩
  · exact h.faults (pushStack_first_error hc (memWrite_protected h0))
  · exact h.faults (pushStack_first_error hc (memWrite_range (by omega) h0))
  · exact h.faults (pushStack_second_error hc h0 (memWrite_protected (s := storeByte _ _ s) h1))
  · exact h.faults (pushStack_second_error hc h0 (memWrite_range (s := storeByte _ _ s)
      (show s.cfg.romSize ≤ _ by omega) h1))

/-! ### Pops and returns -/

/-- The instruction pops a word and then only updates the state with it. -/
def Pops (i : Instr) (s : State) (update : Word → State → State) : Prop :=
  exec i s = conclude (popStack s >>= fun p => .ok (update p.1 p.2))

theorem exec_pop (s : State) :
    Pops .popB s (fun v t => advance 1 (pairWrite .b v t)) ∧ Pops .popD s (fun v t => advance 1 (pairWrite .d v t)) ∧
    Pops .popH s (fun v t => advance 1 (pairWrite .h v t)) :=
  ⟨rfl, rfl, rfl⟩

theorem exec_return {i : Instr} {s : State} (h : (i, true) ∈ returns s.flags) :
    Pops i s fun v t => t.setPc v.toNat :=
  exec_of_mem_returns h

/-- The word and the state `PopStack` answers, before `pc` moves (R261). -/
theorem Pops.completes {i : Instr} {s : State} {update : Word → State → State} (h : Pops i s update)
    (hc : s.cfg.wf = true) (h2 : s.readable (s.sp + 2#16).toNat) (h1 : s.readable (s.sp + 1#16).toNat) :
    exec i s = .next (update (popValue s) (popResult s s.pc)) := by
  rw [h, popStack_ok hc h2 h1]
  rfl

/-- Settles O48. -/
theorem takenReturnsComplete : Obligations.TakenReturnsComplete := by
  rintro s ⟨i, taken⟩ hc hp rfl h2 h1
  exact (exec_return hp).completes hc h2 h1

/-- Settles O51. -/
theorem popCompletes : Obligations.PopCompletes := by
  rintro s _ _ hc h2 h1 rfl rfl
  obtain ⟨popB, popD, popH⟩ := exec_pop s
  obtain ⟨writeB, writeD, writeH⟩ := pairWrite_wordOf (popResult s s.pc) (s.mem.read (s.sp + 1#16).toNat)
    (s.mem.read (s.sp + 2#16).toNat)
  rw [popB.completes hc h2 h1, popD.completes hc h2 h1, popH.completes hc h2 h1, popValue, writeB, writeD, writeH]
  exact ⟨rfl, rfl, rfl⟩

theorem popStack_high_error {s : State} (hc : s.cfg.wf = true) (h2 : s.cfg.totalSize < (s.sp + 2#16).toNat) :
    popStack s = .error ⟨.memoryRange (s.sp + 2#16).toNat, s⟩ := by
  rw [popStack, readSp_ok hc, attempt_bind_ok, memRead_range h2, attempt_bind_error]

theorem popStack_low_error {s : State} (hc : s.cfg.wf = true) (h2 : s.readable (s.sp + 2#16).toNat)
    (h1 : s.cfg.totalSize < (s.sp + 1#16).toNat) : popStack s = .error ⟨.memoryRange (s.sp + 1#16).toNat, s⟩ := by
  rw [popStack, readSp_ok hc, attempt_bind_ok, memRead_ok h2, attempt_bind_ok, memRead_range h1, attempt_bind_error]

/-- Settles O54. -/
theorem popsBeyondMemoryFault : Obligations.PopsBeyondMemoryFault := by
  intro s i hc hi
  obtain ⟨update, h⟩ : ∃ update, Pops i s update := by
    rcases hi with hi | hreturn
    · obtain ⟨popB, popD, popH⟩ := exec_pop s
      simp only [List.mem_cons, List.not_mem_nil, or_false] at hi
      rcases hi with rfl | rfl | rfl
      exacts [⟨_, popB⟩, ⟨_, popD⟩, ⟨_, popH⟩]
    · exact ⟨_, exec_return hreturn⟩
  rw [h]
  exact ⟨fun h2 => conclude_bind_error (popStack_high_error hc h2) _,
    fun h2 h1 => conclude_bind_error (popStack_low_error hc h2 h1) _⟩

/-! ### A push and then a pop -/

/-- The memory with SP set, away from the SP cells. -/
theorem memoryWithSp_read {s : State} {a : Nat} (ha : ¬ s.isSpCell a) (m : Memory) (v : Word) :
    (memoryWithSp s m v).read a = m.read a := by
  obtain ⟨hlo, hhi⟩ := not_or.1 ha
  simp [memoryWithSp, hlo, hhi]

/-- A state whose memory has SP set to `v` has that SP. -/
theorem sp_of_memoryWithSp {s t : State} {m : Memory} {v : Word} (hcfg : t.cfg = s.cfg)
    (hmem : t.mem = memoryWithSp s m v) : t.sp = v := by
  simp [State.sp, hcfg, hmem, memoryWithSp]

/-- A pair holds the word just written to it. -/
theorem pairRead_pairWrite (p : Pair) (v : Word) (s : State) : pairRead p (pairWrite p v s) = v := by
  cases p <;> simp [pairRead, pairWrite, State.bc, State.de, State.hl]

/-- Writing a pair its own value changes no register. -/
theorem pairWrite_pairRead_regs (p : Pair) {s t : State} (h : t.regs = s.regs) :
    (pairWrite p (pairRead p s) t).regs = s.regs := by
  cases p <;> simp [pairRead, pairWrite, State.bc, State.de, State.hl, h]

theorem exec_push_pair {p : Instr × Pair} (h : p ∈ [(Instr.pushB, Pair.b), (.pushD, .d), (.pushH, .h)]) (s : State) :
    Pushes p.1 s (pairRead p.2 s) (advance 1) := by
  simp only [List.mem_cons, List.not_mem_nil, or_false] at h
  rcases h with rfl | rfl | rfl <;> rfl

theorem exec_pop_pair {q : Instr × Pair} (h : q ∈ [(Instr.popB, Pair.b), (.popD, .d), (.popH, .h)]) (s : State) :
    Pops q.1 s fun v t => advance 1 (pairWrite q.2 v t) := by
  simp only [List.mem_cons, List.not_mem_nil, or_false] at h
  rcases h with rfl | rfl | rfl <;> rfl

/-- The stack bytes after a push of `v`: two different cells, and neither an SP cell. -/
theorem pushResult_reads {s : State} (v : Word) (n : Nat) (h0 : ¬ s.isSpCell s.sp.toNat)
    (h1 : ¬ s.isSpCell (s.sp - 1#16).toNat) :
    (pushResult s v n).mem.read s.sp.toNat = hi8 v ∧ (pushResult s v n).mem.read (s.sp - 1#16).toNat = lo8 v := by
  have apart : s.sp.toNat ≠ (s.sp - 1#16).toNat := by
    have := s.sp.isLt
    rw [BitVec.toNat_sub]
    simp only [BitVec.toNat_ofNat]
    omega
  constructor
  · rw [pushResult, memoryWithSp_read h0, Memory.read_write_ne _ _ apart, Memory.read_write_same]
  · rw [pushResult, memoryWithSp_read h1, Memory.read_write_same]

/-- The addresses a pop computes after a push: those of the push (R264). -/
theorem pop_addresses_after_push (sp : Word) : sp - 2#16 + 2#16 = sp ∧ sp - 2#16 + 1#16 = sp - 1#16 := by
  constructor <;> bv_omega

/-- Settles O52: the pop finds SP two below, so it reads the two bytes that the push stored. -/
theorem pushThenPopIsSymmetric : Obligations.PushThenPopIsSymmetric := by
  intro s p q hc hp hq hw0 hw1 h0 h1
  have pushed := (exec_push_pair hp s).completes hc hw0 hw1
  generalize ht : advance 1 (pushResult s (pairRead p.2 s) s.pc) = t at pushed
  have cfg_t : t.cfg = s.cfg := ht ▸ rfl
  have regs_t : t.regs = s.regs := ht ▸ rfl
  have sp_t : t.sp = s.sp - 2#16 := by
    rw [← ht]
    exact sp_of_memoryWithSp (s := s) rfl rfl
  obtain ⟨read_high, read_low⟩ : t.mem.read s.sp.toNat = hi8 (pairRead p.2 s) ∧
      t.mem.read (s.sp - 1#16).toNat = lo8 (pairRead p.2 s) := ht ▸ pushResult_reads _ s.pc h0 h1
  obtain ⟨high_address, low_address⟩ := pop_addresses_after_push s.sp
  rw [← sp_t] at high_address low_address
  have popped := (exec_pop_pair hq t).completes (by rw [cfg_t]; exact hc)
    (by rw [high_address, State.readable, cfg_t]; exact hw0.2) (by rw [low_address, State.readable, cfg_t]; exact hw1.2)
  rw [popValue, high_address, low_address, read_high, read_low, wordOf_lo8_hi8] at popped
  refine ⟨t, _, pushed, popped, sp_t, read_high, read_low, ?_, ?_, fun hpq => ?_⟩
  · rw [← high_address]
    exact sp_of_memoryWithSp (s := t) (by simp; rfl) (by simp; rfl)
  · exact pairRead_pairWrite q.2 _ _
  · rw [← hpq, advance_regs]
    exact pairWrite_pairRead_regs p.2 regs_t

end Sys2Proof.Machine
end

section
/-! PROOFS. Faults (60_exceptions.md R282, R283, R285): what each instruction raises is in its row of the fault table, and
its address is outside what the access may touch; which instructions raise ProtectedMemoryWrite. -/

namespace Sys2Proof.Machine

/-! ### What the operations raise -/

/-- The cause of a fault of an instruction (R282, R283). -/
def FaultRecord.Caused (cfg : Config) : FaultRecord → Prop
  | .protectedMemoryWrite a => a < cfg.romSize
  | .memoryRange a => cfg.totalSize < a
  | .unrecognizedOpcode _ _ => True

/-- The attempt raises, if anything, a fault of the list, with its cause. -/
def RaisesOf (faults : List FaultRecord) (s : State) (r : Raised) : Prop :=
  r.record ∈ faults ∧ r.record.Caused s.cfg

/-- The attempt latches nothing itself; what it raises is of the list. -/
abbrev YieldsFaults (faults : List FaultRecord) (s : State) (x : Attempt State) : Prop :=
  Yields (fun t => t.fault = s.fault) (RaisesOf faults s) x

/-- A longer list, and any consequence of the value. -/
theorem Yields.mono {α : Type} {P Q : α → Prop} {E E' : Raised → Prop} {x : Attempt α} (hx : Yields P E x)
    (hP : ∀ v, P v → Q v) (hE : ∀ r, E r → E' r) : Yields Q E' x := by
  cases x with
  | ok v => exact hP v hx
  | error r => exact hE r hx

theorem RaisesOf.mono {faults faults' : List FaultRecord} {s : State} {r : Raised} (h : RaisesOf faults s r)
    (hsub : ∀ x ∈ faults, x ∈ faults') : RaisesOf faults' s r :=
  ⟨hsub _ h.1, h.2⟩

theorem memRead_faults (a : Nat) (s : State) :
    Yields (fun _ => True) (RaisesOf [.memoryRange a] s) (memRead a s) := by
  rcases memRead_cases a s with ⟨_, e⟩ | ⟨h, e⟩ <;> rw [e]
  · trivial
  · exact ⟨by simp, h⟩

theorem regRead_faults (r : Reg8) (s : State) :
    Yields (fun _ => True) (RaisesOf (sourceFaults r s) s) (regRead r s) := by
  rcases regRead_cases r s with ⟨_, e⟩ | ⟨rfl, h, e⟩ <;> rw [e]
  · trivial
  · exact ⟨by simp [sourceFaults], h⟩

theorem memWrite_faults (a : Nat) (v : Byte) (s : State) : YieldsFaults (storeFaults a) s (memWrite a v s) := by
  rcases memWrite_cases a v s with ⟨_, e⟩ | ⟨h, e⟩ | ⟨_, h, e⟩ <;> rw [e]
  · rfl
  · exact ⟨by simp [storeFaults], h⟩
  · exact ⟨by simp [storeFaults], h⟩

theorem regWrite_faults (dst : Reg8) (v : Byte) (s : State) :
    YieldsFaults (if dst = .m then storeFaults s.hl.toNat else []) s (regWrite dst v s) := by
  by_cases h : dst = .m
  · subst h
    exact memWrite_faults _ v s
  · rw [regWrite_reg h]
    rfl

/-- The SP cells are writable in a well-formed configuration, so only the two stack bytes can raise. -/
theorem pushStack_faults {s : State} (hc : s.cfg.wf = true) (v : Word) :
    YieldsFaults (pushFaults s) s (pushStack v s) := by
  rcases pushStack_cases hc v with ⟨_, _, e⟩ | ⟨r, hr, e⟩ | ⟨_, r, hr, e⟩ <;> rw [e]
  · rfl
  · have first := memWrite_faults s.sp.toNat (hi8 v) s
    rw [hr] at first
    exact RaisesOf.mono first (by simp +contextual [pushFaults])
  · have second := memWrite_faults (s.sp - 1#16).toNat (lo8 v) (storeByte s.sp.toNat (hi8 v) s)
    rw [hr] at second
    exact RaisesOf.mono (s := s) second (by simp +contextual [pushFaults])

theorem popStack_faults {s : State} (hc : s.cfg.wf = true) :
    Yields (fun p => p.2.fault = s.fault) (RaisesOf (popFaults s) s) (popStack s) := by
  rcases popStack_cases hc with ⟨_, _, e⟩ | ⟨h, e⟩ | ⟨_, h, e⟩ <;> rw [e]
  · rfl
  · exact ⟨by simp [popFaults], h⟩
  · exact ⟨by simp [popFaults], h⟩

theorem callIf_faults {s : State} (hc : s.cfg.wf = true) (taken : Bool) (t : Word) :
    YieldsFaults (if taken then pushFaults s else []) s (callIf taken t s) := by
  cases taken
  · rfl
  · exact (pushStack_faults hc _).bind fun _ hu => hu

theorem returnIf_faults {s : State} (hc : s.cfg.wf = true) (taken : Bool) :
    YieldsFaults (if taken then popFaults s else []) s (returnIf taken s) := by
  cases taken
  · rfl
  · exact (popStack_faults hc).bind fun _ hp => hp

theorem storeA_faults (a : Word) (n : Nat) (s : State) : YieldsFaults (storeFaults a.toNat) s (storeA a n s) :=
  (memWrite_faults _ _ s).bind fun _ ht => ht

theorem loadA_faults (a : Word) (n : Nat) (s : State) : YieldsFaults [.memoryRange a.toNat] s (loadA a n s) :=
  (memRead_faults _ s).bind fun _ _ => rfl

theorem pushPair_faults {s : State} (hc : s.cfg.wf = true) (p : Pair) : YieldsFaults (pushFaults s) s (pushPair p s) :=
  (pushStack_faults hc _).bind fun _ ht => ht

theorem popPair_faults {s : State} (hc : s.cfg.wf = true) (p : Pair) : YieldsFaults (popFaults s) s (popPair p s) :=
  (popStack_faults hc).bind fun q hq => (pairWrite_fault q.2 p q.1).trans hq

/-! ### What an instruction latches -/

/-- The latch is as before, or holds a fault of the list, with its cause. -/
def Latches (faults : List FaultRecord) (s t : State) : Prop :=
  t.fault = s.fault ∨ ∃ r ∈ faults, t.fault = some r ∧ r.Caused s.cfg

theorem YieldsFaults.next {faults : List FaultRecord} {s t : State} {x : Attempt State} (hx : YieldsFaults faults s x)
    (h : conclude x = .next t) : Latches faults s t :=
  Yields.conclude (Yields.mono hx (fun _ => .inl) fun _ => id) (fun r hr => .inr ⟨r.record, hr.1, rfl, hr.2⟩) h

/-- Once its operand bytes are fetched an instruction latches a fault of its row of R285, with its cause, or none. -/
theorem exec_latches {i : Instr} {s t : State} (hc : s.cfg.wf = true) (h : exec i s = .next t) :
    Latches (i.possibleFaults s) s t := by
  cases i
  case mov dst src =>
    refine YieldsFaults.next ?_ h
    refine Yields.bind ((regRead_faults src s).mono (fun _ => id) fun r hr => hr.mono fun _ => List.mem_append_left _) ?_
    intro v _
    exact Yields.bind ((regWrite_faults dst v s).mono (fun _ => id) fun r hr => hr.mono fun _ => List.mem_append_right _)
      fun _ ht => ht
  case mvi dst imm =>
    refine YieldsFaults.next ?_ h
    exact (regWrite_faults dst imm s).bind fun _ ht => ht
  case staxB | staxD | sta => exact (storeA_faults _ _ s).next h
  case ldaxB | ldaxD | lda => exact (loadA_faults _ _ s).next h
  case add src | adc src | sub src | sbb src | ana src | xra src | ora src | cmp src =>
    refine YieldsFaults.next ?_ h
    exact (regRead_faults src s).bind fun _ _ => rfl
  case jmp | jnz | jz | jnc | jc | jpo | jpe | jp | jm =>
    cases h
    rw [jumpIf_eq]
    exact .inl rfl
  case call | cnz | cz | cnc | cc | cpo | cpe | cp | cm => exact (callIf_faults hc _ _).next h
  case ret | rnz | rz | rnc | rc | rpo | rpe | rp | rm => exact (returnIf_faults hc _).next h
  case pushB | pushD | pushH => exact (pushPair_faults hc _).next h
  case popB | popD | popH => exact (popPair_faults hc _).next h
  all_goals cases h; exact .inl rfl

/-- From an empty latch, what is latched is of the instruction's row, with its cause. -/
theorem exec_latches_of_none {i : Instr} {s t : State} {r : FaultRecord} (hc : s.cfg.wf = true) (hf : s.fault = none)
    (h : exec i s = .next t) (hr : t.fault = some r) : r ∈ i.possibleFaults s ∧ r.Caused s.cfg := by
  rcases exec_latches hc h with hkept | ⟨r', hmem, hr', hcause⟩
  · rw [hkept, hf] at hr
    cases hr
  · rw [hr] at hr'
    cases hr'
    exact ⟨hmem, hcause⟩

/-- Settles O30. -/
theorem onlyTheTabledFaultsAreRaised : Obligations.OnlyTheTabledFaultsAreRaised :=
  fun _ _ _ _ hc hf h hr => (exec_latches_of_none hc hf h hr).1

/-! ### ProtectedMemoryWrite -/

/-- The rows of the fault table with a protected write: single stores, pushes and taken calls. -/
theorem stores_of_protectedMemoryWrite {i : Instr} {s : State} {a : Nat}
    (h : .protectedMemoryWrite a ∈ i.possibleFaults s) :
    (∃ src, i = .mov .m src) ∨ (∃ v, i = .mvi .m v) ∨ (∃ addr, i = .sta addr) ∨
      i ∈ [.staxB, .staxD, .pushB, .pushD, .pushH] ∨ ∃ addr, (i, true) ∈ calls addr s.flags := by
  cases i
  case mov dst src =>
    cases dst
    case m => exact .inl ⟨src, rfl⟩
    all_goals simp [Instr.possibleFaults, sourceFaults] at h
  case mvi dst v =>
    cases dst
    case m => exact .inr (.inl ⟨v, rfl⟩)
    all_goals simp [Instr.possibleFaults] at h
  case sta addr => exact .inr (.inr (.inl ⟨addr, rfl⟩))
  case staxB | staxD | pushB | pushD | pushH => exact .inr (.inr (.inr (.inl (by simp))))
  case call addr => exact .inr (.inr (.inr (.inr ⟨addr, by simp [calls]⟩)))
  case cnz addr | cz addr | cnc addr | cc addr | cpo addr | cpe addr | cp addr | cm addr =>
    simp only [Instr.possibleFaults] at h
    split at h
    · next htaken => exact .inr (.inr (.inr (.inr ⟨addr, by simpa [calls, condHolds] using htaken⟩)))
    · cases h
  all_goals simp [Instr.possibleFaults, sourceFaults, popFaults] at h

/-- A protected write that an instruction latches: its cause, what it leaves, and that a further step does nothing. -/
theorem exec_protectedMemoryWrite {i : Instr} {s t : State} {a : Nat} (hc : s.cfg.wf = true) (hf : s.fault = none)
    (h : exec i s = .next t) (ha : t.fault = some (.protectedMemoryWrite a)) :
    a < s.cfg.romSize ∧ t.mem.read a = s.mem.read a ∧ t.running = false ∧ t.pc = s.pc ∧ step t = .next t := by
  obtain ⟨_, below : a < s.cfg.romSize⟩ := exec_latches_of_none hc hf h ha
  obtain ⟨ws, hs⟩ := exec_stored h
  have latched : t.fault ≠ none := by simp [ha]
  rcases exec_ends h with hn | he
  · exact absurd (hn.fault.trans hf) latched
  · exact ⟨below, hs.read_protected below, he.running, he.pc, step_of_faulted (by rw [hs.cfg]; exact hc) latched⟩

/-- CFG_T with all memory 0 and given flags: HL, BC, DE and SP are 0, which is protected. -/
def protectedEverywhere (f : Flags) : State := { State.reset with flags := f, mem := Memory.cleared }

theorem protectedEverywhere_wf (f : Flags) : (protectedEverywhere f).wf = true :=
  (State.wf_iff _).2 ⟨cfgT_wf, Nat.zero_le _, rfl, rfl, fun h => by cases h⟩

/-- The pointers do not depend on the flags. -/
theorem protectedEverywhere_pointers (f : Flags) :
    (protectedEverywhere f).hl.toNat = 0 ∧ (protectedEverywhere f).bc.toNat = 0 ∧
    (protectedEverywhere f).de.toNat = 0 ∧ (protectedEverywhere f).sp.toNat = 0 :=
  show (protectedEverywhere Flags.clear).hl.toNat = 0 ∧ (protectedEverywhere Flags.clear).bc.toNat = 0 ∧
    (protectedEverywhere Flags.clear).de.toNat = 0 ∧ (protectedEverywhere Flags.clear).sp.toNat = 0 by decide

/-- There every single store, push and taken call raises at address 0. -/
theorem exec_protectedEverywhere (f : Flags) {i : Instr}
    (hi : (∃ src, i = .mov .m src) ∨ (∃ v, i = .mvi .m v) ∨ i = .sta 0 ∨
      i ∈ [.staxB, .staxD, .pushB, .pushD, .pushH] ∨ ∃ addr, (i, true) ∈ calls addr f) :
    exec i (protectedEverywhere f) = .next (faultEntry (protectedEverywhere f) (.protectedMemoryWrite 0)) := by
  obtain ⟨hl_zero, bc_zero, de_zero, sp_zero⟩ := protectedEverywhere_pointers f
  have protected_zero : 0 < (protectedEverywhere f).cfg.romSize := show 0 < Config.cfgT.romSize by decide
  have single {i : Instr} (h) := (singleStoresOutsideWritableMemoryFault (protectedEverywhere f) i 0 h).1 protected_zero
  have push {i : Instr} {v : Word} (h) :=
    (pushFaultsKeepTheEarlierByte (protectedEverywhere f) i v cfgT_wf h).1 (by rw [sp_zero]; exact protected_zero)
  simp only [sp_zero] at push
  simp only [List.mem_cons, List.not_mem_nil, or_false] at hi
  rcases hi with ⟨src, rfl⟩ | ⟨v, rfl⟩ | rfl | (rfl | rfl | rfl | rfl | rfl) | ⟨addr, hcall⟩
  · exact single (.inl ⟨src, fun _ => Nat.zero_le _, rfl, hl_zero.symm⟩)
  · exact single (.inr (.inl ⟨v, rfl, hl_zero.symm⟩))
  · exact single (.inr (.inr (.inl ⟨0, rfl, rfl⟩)))
  · exact single (.inr (.inr (.inr (.inl ⟨rfl, bc_zero.symm⟩))))
  · exact single (.inr (.inr (.inr (.inr ⟨rfl, de_zero.symm⟩))))
  · exact push (v := (protectedEverywhere f).bc) (.inl (by simp))
  · exact push (v := (protectedEverywhere f).de) (.inl (by simp))
  · exact push (v := (protectedEverywhere f).hl) (.inl (by simp))
  · exact push (.inr ⟨addr, hcall, rfl⟩)

/-- Settles O29. -/
theorem protectedWriteIsRaisedByStoresOnly : Obligations.ProtectedWriteIsRaisedByStoresOnly := by
  refine ⟨fun s a v h => memWrite_protected h, fun i s t a hc hf h ha => ?_, fun f => ?_⟩
  · obtain ⟨below, kept, stopped, pc_kept, idle⟩ := exec_protectedMemoryWrite hc hf h ha
    exact ⟨below, kept, stopped, pc_kept, idle, stores_of_protectedMemoryWrite (exec_latches_of_none hc hf h ha).1⟩
  · refine ⟨protectedEverywhere f, protectedEverywhere_wf f, rfl, rfl, fun i hi => ?_⟩
    exact ⟨_, 0, exec_protectedEverywhere f hi, rfl⟩

end Sys2Proof.Machine
end
